-- ==== Sys2Proof/Word.lean ====
section
/-! DEFINITION. The word, byte and text types of the AsmConv execution block (00_scope.md R7, R10; 30_encoding.md R70). -/

namespace Sys2Proof

/-- A value, `bits32` in the spec (R10): a register cell, an immediate, an effective address. -/
abbrev Word := BitVec 32

/-- One byte of data memory (R31). -/
abbrev Byte := BitVec 8

/-- Line text, tokens and names: the block executes text (R3). -/
abbrev Text := List Char

/-- A label or external name. -/
abbrev Label := Text

end Sys2Proof
end

