-- ==== Sys2Proof/Machine/Lexical.lean ====
section
/-! DEFINITION. Character classes and text search, shared by WellFormed.lean and Decode.lean (30_encoding.md R70, R75, R78,
R87, R89; 40_engine.md R102). -/

namespace Sys2Proof.Machine

/-- White space: space, tab, line feed, vertical tab, form feed, carriage return (log entry 8). -/
def isSpace (c : Char) : Bool := c.toNat == 32 || (9 ≤ c.toNat && c.toNat ≤ 13)

def isDigit (c : Char) : Bool := 48 ≤ c.toNat && c.toNat ≤ 57

def isLetter (c : Char) : Bool := (65 ≤ c.toNat && c.toNat ≤ 90) || (97 ≤ c.toNat && c.toNat ≤ 122)

/-- `[A-Za-z_.]` (R87). -/
def identStart (c : Char) : Bool := isLetter c || c == '_' || c == '.'

/-- `[A-Za-z0-9_.]` (R87). -/
def identRest (c : Char) : Bool := identStart c || isDigit c

/-- `[A-Za-z_.][A-Za-z0-9_.]*` (R87, R89). -/
def isIdent : Text → Bool
  | [] => false
  | c :: cs => identStart c && cs.all identRest

/-- The text `pat` occurs in the line (R102). -/
def containsText (pat : Text) : Text → Bool
  | [] => pat.isPrefixOf []
  | c :: cs => pat.isPrefixOf (c :: cs) || containsText pat cs

/-- The first binding of a name in a table. -/
def lookupName {α : Type} (name : Label) : List (Label × α) → Option α
  | [] => none
  | e :: es => if e.1 = name then some e.2 else lookupName name es

end Sys2Proof.Machine
end

