-- ==== Sys2Proof/Syntax.lean ====
section
/-! DEFINITION. The textual ISA as data: register views, operands, the 33 instructions, the decoded record and the label
tables (10_state.md R22, R23, R32, R33; 30_encoding.md R71 to R94). -/

namespace Sys2Proof

/-- The 8 register slots, in the document's listing order (R22). -/
inductive Slot where
  | a | b | c | d | si | di | sp | bp
deriving DecidableEq, Repr

/-- The 20 named register views (R23). -/
inductive View where
  | eax | ax | ah | al
  | ebx | bx | bh | bl
  | ecx | cx | ch | cl
  | edx | dx | dh | dl
  | esi | edi | esp | ebp
deriving DecidableEq, Repr

/-- The declared size of an instruction: 1, 2 or 4 bytes, named by its suffix letter (R72). -/
inductive Size where
  | b | w | l
deriving DecidableEq, Repr

/-- The scale of an index: 1, 2, 4 or 8 (R85). -/
inductive Scale where
  | x1 | x2 | x4 | x8
deriving DecidableEq, Repr

/-- `Mem(base, index, scale, disp)` of R88. A bare data label has neither base nor index (R87). -/
structure MemRef where
  base  : Option View
  index : Option View
  scale : Scale
  disp  : Word
deriving DecidableEq, Repr

/-- An operand that is read (R88). -/
inductive Operand where
  | reg (v : View)
  | imm (k : Word)
  | mem (m : MemRef)
deriving DecidableEq, Repr

/-- An operand that is written: an immediate never is (R90). -/
inductive Dest where
  | reg (v : View)
  | mem (m : MemRef)
deriving DecidableEq, Repr

/-- The resolved target of a `call` (R88, R94). -/
inductive Target where
  | internal (index : Nat)
  | external (name : Label)
deriving DecidableEq, Repr

/-- The decoded instructions, one constructor per row of opcode_table.json (R93). Operands stand in text order, source
first (R76). The target of a jump or loop is an instruction index: R94 admits no other for them. -/
inductive Instr where
  | mov (size : Size) (src : Operand) (dst : Dest)
  | add (size : Size) (src : Operand) (dst : Dest)
  | sub (size : Size) (src : Operand) (dst : Dest)
  | or (size : Size) (src : Operand) (dst : Dest)
  | xor (size : Size) (src : Operand) (dst : Dest)
  | and (size : Size) (src : Operand) (dst : Dest)
  | inc (size : Size) (dst : Dest)
  | dec (size : Size) (dst : Dest)
  | shl (size : Size) (src : Operand) (dst : Dest)
  | shr (size : Size) (src : Operand) (dst : Dest)
  | sar (size : Size) (src : Operand) (dst : Dest)
  | lea (size : Size) (src : MemRef) (dst : Dest)
  | mul (size : Size) (src : Operand)
  | div (size : Size) (src : Operand)
  | push (size : Size) (src : Operand)
  | pop (size : Size) (dst : Dest)
  | test (size : Size) (src : Operand) (dst : Operand)
  | cmp (size : Size) (src : Operand) (dst : Operand)
  | jmp (target : Nat)
  | jl (target : Nat)
  | jle (target : Nat)
  | je (target : Nat)
  | jge (target : Nat)
  | jg (target : Nat)
  | ja (target : Nat)
  | jae (target : Nat)
  | jne (target : Nat)
  | jz (target : Nat)
  | jnz (target : Nat)
  | loop (target : Nat)
  | call (target : Target)
  | ret
  | int (imm : Word)
deriving DecidableEq, Repr

/-- The 33 base mnemonics (R93). -/
inductive Op where
  | mov | add | sub | or | xor | and | inc | dec | shl | shr | sar | lea | mul | div | push | pop | test | cmp
  | jmp | jl | jle | je | jge | jg | ja | jae | jne | jz | jnz | loop | call | ret | int
deriving DecidableEq, Repr

/-- What a line decodes to: R88's `kind`, with the instruction for `Known`. -/
inductive Kind where
  | known (i : Instr)
  | unknown
  | bypassed
deriving DecidableEq, Repr

/-- The decoded record of one line (R88). Its mnemonic, size, operands and `hasMem` are read from the instruction
(Machine/Views.lean). -/
structure Record where
  text : Text
  kind : Kind
deriving DecidableEq, Repr

/-- A data label's `{declared element size, base address}` (R32). No rule reads the size (D17). -/
structure DataLabel where
  size : Size
  base : Word
deriving DecidableEq, Repr

/-- The name tables of a loaded program (R33). A table is a list of bindings; the first of a name counts. -/
structure Tables where
  textLabels : List (Label × Nat)
  dataLabels : List (Label × DataLabel)
  externs    : List Label
deriving DecidableEq, Repr

/-- The check a malformed line fails (R201 records it). The names are the model's, one per rule of 30_encoding.md. -/
inductive Check where
  | suffixOnControl      -- R73
  | emptyToken           -- R75
  | operandCount         -- R77
  | operandClass         -- R77
  | badLiteral           -- R78
  | literalRange         -- R79
  | badImmediate         -- R80
  | badCharacter         -- R81
  | badRegister          -- R82
  | badMemoryForm        -- R83
  | narrowAddress        -- R84
  | badScale             -- R85
  | badOperand           -- R87: not a bare data-label name nor any other operand form
  | badTarget            -- R89
  | immediateDestination -- R90
  | leaSource            -- R91
  | spacedEsp            -- R84, R227: `esp` named with white space inside the token (log entry 11)
deriving DecidableEq, Repr

/-- Why one line refuses its program (R201, codes 101 and 102). -/
inductive LineError where
  | malformed (check : Check)
  | unresolved (name : Label)
deriving DecidableEq, Repr

end Sys2Proof
end

