-- ==== Sys2Proof/Config.lean ====
section
/-! DEFINITION. The implementation parameters of 00_scope.md R8. They are fixed for a machine; State carries them, so that
a statement about every state is a statement about every choice of them. Their defaults stand in Machine/Defaults.lean. -/

namespace Sys2Proof

/-- `UNKNOWN_MNEMONIC_POLICY` (R8, R103). -/
inductive UnknownPolicy where
  | skip
  | fault
deriving DecidableEq, Repr

/-- `MUL32_HIGH` (R8, R141). -/
inductive Mul32High where
  | unsigned
  | signed
deriving DecidableEq, Repr

/-- What becomes of an instruction that names `esp` in a line whose text does not contain the bypass pattern, such as
`movl $8, % esp` (R75). The spec's rules do not agree on it (log entry 11). -/
inductive SpacedEsp where
  /-- The line is malformed: it is neither bypassed, as R16 and R102 ask, nor run, as R227 and R84 ask. -/
  | refuse
  /-- It is decoded and run. -/
  | run
  /-- It is bypassed as `%esp` is. -/
  | bypass
deriving DecidableEq, Repr

/-- The parameters of R8, and `spacedEsp`, which is the model's own. `EXTERN_SET` comes with each program and stands in its
`Tables`. -/
structure Params where
  capacity      : Nat
  spReset       : Word
  flagClearSet  : List Op
  unknownPolicy : UnknownPolicy
  bypassPattern : Text
  spacedEsp     : SpacedEsp
  mul32High     : Mul32High
deriving DecidableEq, Repr

end Sys2Proof
end

