-- ==== Sys2Proof/Machine/Defaults.lean ====
section
/-! DEFINITION. The default value of every parameter of 00_scope.md R8 (log entry 16), and of the model's own
(log entry 11). -/

namespace Sys2Proof.Machine

/-- "default 1 MiB" (R8, D5). -/
def defaultCapacity : Nat := 1048576

/-- `SP_RESET` defaults to `CAPACITY` (R8, D4). -/
def defaultSpReset : Word := BitVec.ofNat 32 defaultCapacity

/-- Every data mnemonic that is no flag producer (R8, R104, D19). -/
def defaultFlagClearSet : List Op :=
  [.mov, .add, .sub, .or, .xor, .and, .shl, .shr, .sar, .lea, .mul, .div, .push, .pop]

/-- The substring `%esp` (R8, D27). -/
def defaultBypassPattern : Text := "%esp".toList

def defaultParams : Params where
  capacity := defaultCapacity
  spReset := defaultSpReset
  flagClearSet := defaultFlagClearSet
  unknownPolicy := .skip
  bypassPattern := defaultBypassPattern
  spacedEsp := .refuse
  mul32High := .unsigned

end Sys2Proof.Machine
end

