-- ==== Sys2Proof/Machine/State.lean ====
section
/-! DEFINITION. The whole machine state (10_state.md R20), the reasons a step can stop, and the state after reset (R36).
Everything is plain data. -/

namespace Sys2Proof.Machine

/-- The run-time fault causes of 60_exceptions.md R201, each with the value it records. All are SAFE: the spec itself ends
the run there. A meaning raises one by answering `fault`; `step` then enters the status `Faulted` (R202). -/
inductive Fault where
  /-- Code 1, raised by any memory operand access and by the slot access of push, pop, an internal call and ret (R53).
  Safe. -/
  | outOfBounds (addr : Word) (n : Nat)
  /-- Code 2, raised by div (R142). Safe. -/
  | divideByZero (pc : Nat)
  /-- Code 3, raised by div (R142). Safe. -/
  | divideOverflow (quotient : Nat)
  /-- Code 4, raised by shl, shr and sar (R130). Safe. -/
  | shiftCountOutOfRange (count : Word)
  /-- Code 5, raised by the step for an unknown line under `UNKNOWN_MNEMONIC_POLICY = fault` (R103). Safe. -/
  | unknownMnemonic (pc : Nat)
deriving DecidableEq, Repr

/-- The fault record (R203). Its code and name are read from the fault (Machine/Ops.lean). -/
structure FaultRecord where
  fault : Fault
  pc    : Nat
  text  : Text
deriving DecidableEq, Repr

/-- The load errors of R201, each with the values R203 records. -/
inductive LoadError where
  /-- Code 101. -/
  | malformedInstruction (line : Nat) (text : Text) (check : Check)
  /-- Code 102; `none` is R201's "entry". -/
  | unresolvedLabel (line : Option Nat) (name : Label)
  /-- Code 103. -/
  | imageTooLarge (length : Nat)
  /-- Code 104. -/
  | programTooLarge (n : Nat)
deriving DecidableEq, Repr

/-- What the status port shows (R34, R100): the run status, or the load error that left no runnable program (R221). -/
inductive Status where
  | running
  | halted
  | faulted (record : FaultRecord)
  | loadRefused (error : LoadError)
deriving DecidableEq, Repr

/-- Why a step request has no meaning. No instruction is refused: each reason says that no step is enabled (R101). -/
inductive Refusal where
  /-- An instruction that has no meaning yet: a rejected arm of `exec`. No arm is. Safe. -/
  | notModelled (mnemonic : String)
  /-- Raised by `step` when the run has ended normally (R34). Safe. -/
  | runHalted
  /-- Raised by `step` after a load error: there is no runnable program (R221). Safe. -/
  | noRunnableProgram (error : LoadError)
  /-- Raised by `step` when `pc` names no instruction although the status is Running (R101), which happens only after a load
  that broke the load port's contract (log entry 15). Safe. -/
  | noInstructionAt (pc : Nat)
deriving DecidableEq, Repr

/-- The 8 storage cells (R22). -/
structure Cells where
  a  : Word
  b  : Word
  c  : Word
  d  : Word
  si : Word
  di : Word
  sp : Word
  bp : Word
deriving DecidableEq, Repr

/-- The 8 flags (R30). -/
structure Flags where
  l  : Bool
  le : Bool
  e  : Bool
  ge : Bool
  g  : Bool
  a  : Bool
  ae : Bool
  z  : Bool
deriving DecidableEq, Repr

/-- Data memory: (address, byte) pairs, addresses strictly rising, no zero byte listed. An unlisted byte is 0, the value R36
gives it at reset. -/
abbrev Memory := List Host.Cell

/-- The read-only program store (R33). -/
structure Program where
  code   : List Record
  tables : Tables
  entry  : Label
deriving DecidableEq, Repr

/-- One entry of the diagnostic list (R35). -/
structure Diagnostic where
  pc   : Nat
  text : Text
deriving DecidableEq, Repr

/-- `kind` of a trace event (R116). -/
inductive TraceKind where
  | executed
  | bypassed
  | unknown
  | externalCall
  | passThroughInt
deriving DecidableEq, Repr

/-- One event of the trace port (R116). -/
structure TraceEvent where
  pc     : Nat
  kind   : TraceKind
  hasMem : Bool
  text   : Text
deriving DecidableEq, Repr

/-- The machine state (R20), with the parameters (R8) and the program store (R33), which no step changes, and the list of
trace events emitted so far (R116). -/
structure State where
  params  : Params
  program : Program
  cells   : Cells
  flags   : Flags
  pc      : Nat
  mem     : Memory
  status  : Status
  diags   : List Diagnostic
  trace   : List TraceEvent
deriving DecidableEq, Repr

/-- The machine after reset with given parameters and before a program is loaded (R36, R221 step 1; log entry 3). -/
def State.resetWith (p : Params) : State where
  params := p
  program := { code := [], tables := { textLabels := [], dataLabels := [], externs := [] }, entry := [] }
  cells := { a := 0, b := 0, c := 0, d := 0, si := 0, di := 0, sp := p.spReset, bp := 0 }
  flags := { l := false, le := false, e := false, ge := false, g := false, a := false, ae := false, z := false }
  pc := 0
  mem := []
  status := .halted
  diags := []
  trace := []

/-- The machine after reset with the default parameters (R8, R36). -/
def State.reset : State := State.resetWith defaultParams

end Sys2Proof.Machine
end

