-- ==== Sys2Proof/Machine/Views.lean ====
section
/-! DEFINITION. What each register view, size, scale and decoded record stands for (10_state.md R23; 30_encoding.md R72,
R85, R88, R93). -/

namespace Sys2Proof.Machine

/-- The storage cell a view lies in (R23). -/
def slotOf : View → Slot
  | .eax | .ax | .ah | .al => .a
  | .ebx | .bx | .bh | .bl => .b
  | .ecx | .cx | .ch | .cl => .c
  | .edx | .dx | .dh | .dl => .d
  | .esi => .si
  | .edi => .di
  | .esp => .sp
  | .ebp => .bp

/-- A view's width in bits (R23). -/
def widthOf : View → Nat
  | .eax | .ebx | .ecx | .edx | .esi | .edi | .esp | .ebp => 32
  | .ax | .bx | .cx | .dx => 16
  | .ah | .al | .bh | .bl | .ch | .cl | .dh | .dl => 8

/-- A view's bit offset in its cell (R23). -/
def offsetOf : View → Nat
  | .ah | .bh | .ch | .dh => 8
  | _ => 0

/-- All 20 views, in the order of R23's table. -/
def allViews : List View :=
  [.eax, .ax, .ah, .al, .ebx, .bx, .bh, .bl, .ecx, .cx, .ch, .cl, .edx, .dx, .dh, .dl, .esi, .edi, .esp, .ebp]

/-- A declared size in bytes (R72). -/
def bytesOf : Size → Nat
  | .b => 1
  | .w => 2
  | .l => 4

/-- A scale's factor (R85). -/
def factorOf : Scale → Nat
  | .x1 => 1
  | .x2 => 2
  | .x4 => 4
  | .x8 => 8

/-- A written operand is read as the operand of the same form. -/
def destOperand : Dest → Operand
  | .reg v => .reg v
  | .mem m => .mem m

/-- R88's `op`. -/
def opOf : Instr → Op
  | .mov .. => .mov
  | .add .. => .add
  | .sub .. => .sub
  | .or .. => .or
  | .xor .. => .xor
  | .and .. => .and
  | .inc .. => .inc
  | .dec .. => .dec
  | .shl .. => .shl
  | .shr .. => .shr
  | .sar .. => .sar
  | .lea .. => .lea
  | .mul .. => .mul
  | .div .. => .div
  | .push .. => .push
  | .pop .. => .pop
  | .test .. => .test
  | .cmp .. => .cmp
  | .jmp .. => .jmp
  | .jl .. => .jl
  | .jle .. => .jle
  | .je .. => .je
  | .jge .. => .jge
  | .jg .. => .jg
  | .ja .. => .ja
  | .jae .. => .jae
  | .jne .. => .jne
  | .jz .. => .jz
  | .jnz .. => .jnz
  | .loop .. => .loop
  | .call .. => .call
  | .ret => .ret
  | .int .. => .int

/-- R88's `size`. A control mnemonic's is 4 and is never read (R72). -/
def declaredSize : Instr → Size
  | .mov size _ _ | .add size _ _ | .sub size _ _ | .or size _ _ | .xor size _ _ | .and size _ _ => size
  | .inc size _ | .dec size _ => size
  | .shl size _ _ | .shr size _ _ | .sar size _ _ | .lea size _ _ => size
  | .mul size _ | .div size _ | .push size _ | .pop size _ => size
  | .test size _ _ | .cmp size _ _ => size
  | .jmp _ | .jl _ | .jle _ | .je _ | .jge _ | .jg _ | .ja _ | .jae _ | .jne _ | .jz _ | .jnz _ => .l
  | .loop _ | .call _ | .ret | .int _ => .l

/-- R88's `ops`, in text order. -/
def operandsOf : Instr → List Operand
  | .mov _ src dst | .add _ src dst | .sub _ src dst | .or _ src dst | .xor _ src dst | .and _ src dst =>
    [src, destOperand dst]
  | .shl _ src dst | .shr _ src dst | .sar _ src dst => [src, destOperand dst]
  | .inc _ dst | .dec _ dst | .pop _ dst => [destOperand dst]
  | .lea _ src dst => [.mem src, destOperand dst]
  | .mul _ src | .div _ src | .push _ src => [src]
  | .test _ src dst | .cmp _ src dst => [src, dst]
  | .jmp _ | .jl _ | .jle _ | .je _ | .jge _ | .jg _ | .ja _ | .jae _ | .jne _ | .jz _ | .jnz _ => []
  | .loop _ | .call _ | .ret => []
  | .int imm => [.imm imm]

/-- R88's `target`. -/
def targetOf : Instr → Option Target
  | .jmp t | .jl t | .jle t | .je t | .jge t | .jg t | .ja t | .jae t | .jne t | .jz t | .jnz t | .loop t =>
    some (.internal t)
  | .call t => some t
  | _ => none

def isMem : Operand → Bool
  | .mem _ => true
  | _ => false

/-- The operand names the view: as a register, a base or an index. -/
def namesView (v : View) : Operand → Bool
  | .reg w => w == v
  | .imm _ => false
  | .mem m => m.base == some v || m.index == some v

/-- R88's `hasMem`. A record that carries only its text has no operands (log entry 13). -/
def hasMem (r : Record) : Bool :=
  match r.kind with
  | .known i => (operandsOf i).any isMem
  | .unknown | .bypassed => false

end Sys2Proof.Machine
end

