-- ==== Sys2Proof/Machine/Ops.lean ====
section
/-! DEFINITION. The named operations over registers and memory, entering the status `Faulted`, and leaving it by a reset
(10_state.md R24, R25; 20_memory.md R51 to R53; 40_engine.md R112, R114; 60_exceptions.md R202, R203). -/

namespace Sys2Proof.Machine

/-! ### Register cells and views -/

def getCell (c : Cells) : Slot → Word
  | .a => c.a
  | .b => c.b
  | .c => c.c
  | .d => c.d
  | .si => c.si
  | .di => c.di
  | .sp => c.sp
  | .bp => c.bp

def setCell (c : Cells) (s : Slot) (w : Word) : Cells :=
  match s with
  | .a => { c with a := w }
  | .b => { c with b := w }
  | .c => { c with c := w }
  | .d => { c with d := w }
  | .si => { c with si := w }
  | .di => { c with di := w }
  | .sp => { c with sp := w }
  | .bp => { c with bp := w }

/-- `2^width - 1` as a pattern. -/
def lowMask (width : Nat) : Word := BitVec.ofNat 32 (2 ^ width - 1)

/-- `x[v]` (R24). -/
def readView (c : Cells) (v : View) : Word := (getCell c (slotOf v) >>> offsetOf v) &&& lowMask (widthOf v)

/-- The cell of `v` after `x[v] <- val` (R25). -/
def mergeView (cell : Word) (v : View) (val : Word) : Word :=
  let mask := lowMask (widthOf v) <<< offsetOf v
  (cell &&& ~~~mask) ||| ((val <<< offsetOf v) &&& mask)

/-- `x[v] <- val` (R25). -/
def writeView (c : Cells) (v : View) (val : Word) : Cells :=
  setCell c (slotOf v) (mergeView (getCell c (slotOf v)) v val)

/-! ### Memory -/

/-- The byte at an address: 0 where nothing is listed (R36). -/
def readByte : Memory → Nat → Byte
  | [], _ => 0#8
  | (x, b) :: rest, a => if x = a then b else readByte rest a

/-- Write one byte and keep the canonical form: a zero byte is not listed. -/
def writeByte : Memory → Nat → Byte → Memory
  | [], a, v => if v = 0#8 then [] else [(a, v)]
  | (x, b) :: rest, a, v =>
    if a < x then (if v = 0#8 then (x, b) :: rest else (a, v) :: (x, b) :: rest)
    else if a = x then (if v = 0#8 then rest else (a, v) :: rest)
    else (x, b) :: writeByte rest a v

/-- Every listed address is at least `lo`, addresses rise strictly, and no listed byte is 0. -/
def wfFrom (lo : Nat) : Memory → Bool
  | [] => true
  | (x, b) :: rest => decide (lo ≤ x) && decide (b ≠ 0#8) && wfFrom (x + 1) rest

/-- The canonical form. -/
def Memory.wf (m : Memory) : Bool := wfFrom 0 m

/-- Every listed address lies below the capacity. -/
def memBelow (capacity : Nat) (m : Memory) : Bool := m.all (fun c => decide (c.1 < capacity))

/-- `sum over i in 0..n-1 of mem[a+i] * 2^(8*i)` (R51). -/
def readLE (m : Memory) (a : Nat) : Nat → Nat
  | 0 => 0
  | n + 1 => (readByte m a).toNat + 256 * readLE m (a + 1) n

/-- `mem[a+i] <- v[8*i+7 : 8*i]` for each `i` below `n` (R52). -/
def writeLE (m : Memory) (a : Nat) (n : Nat) (v : Word) : Memory :=
  match n with
  | 0 => m
  | n + 1 => writeLE (writeByte m a (v.setWidth 8)) (a + 1) n (v >>> 8)

/-- R53: `int(addr) + n <= CAPACITY`, in unbounded integers. -/
def inBounds (s : State) (addr : Word) (n : Nat) : Bool := decide (addr.toNat + n ≤ s.params.capacity)

/-- `MemRead(addr, n)` (R51). -/
def memRead (s : State) (addr : Word) (n : Nat) : Except Fault Word :=
  if inBounds s addr n then .ok (BitVec.ofNat 32 (readLE s.mem addr.toNat n)) else .error (.outOfBounds addr n)

/-- `MemWrite(addr, n, v)` (R52). -/
def memWrite (s : State) (addr : Word) (n : Nat) (v : Word) : Except Fault State :=
  if inBounds s addr n then .ok { s with mem := writeLE s.mem addr.toNat n v } else .error (.outOfBounds addr n)

/-- The bytes of an image at addresses `a`, `a + 1`, … in canonical form (R222). -/
def imageCells (a : Nat) : List Byte → Memory
  | [] => []
  | b :: bs => if b = 0#8 then imageCells (a + 1) bs else (a, b) :: imageCells (a + 1) bs

/-! ### The stack pointer and the program counter -/

/-- `SP` (R28). -/
def stackPointer (s : State) : Word := readView s.cells .esp

/-- `SP <- a` (R28). -/
def setStackPointer (s : State) (a : Word) : State := { s with cells := writeView s.cells .esp a }

/-- `pc <- pc + 1` (R114). -/
def advance (s : State) : State := { s with pc := s.pc + 1 }

/-- `pc <- t` (R11). -/
def jumpTo (s : State) (t : Nat) : State := { s with pc := t }

/-- `N` (R16, R29). -/
def programLength (s : State) : Nat := s.program.code.length

/-! ### Faults. A meaning computes in `Except Fault`: the first raise ends it, and nothing it did remains (R112). -/

/-- The outcome of a handler. -/
def outcomeOf (r : Except Fault State) : Host.Outcome State Fault Refusal :=
  match r with
  | .ok s => .next s
  | .error f => .fault f

/-- The code of a fault (R201). -/
def faultCode : Fault → Nat
  | .outOfBounds _ _ => 1
  | .divideByZero _ => 2
  | .divideOverflow _ => 3
  | .shiftCountOutOfRange _ => 4
  | .unknownMnemonic _ => 5

/-- The name of a fault (R201). -/
def faultName : Fault → Text
  | .outOfBounds _ _ => "OutOfBounds".toList
  | .divideByZero _ => "DivideByZero".toList
  | .divideOverflow _ => "DivideOverflow".toList
  | .shiftCountOutOfRange _ => "ShiftCountOutOfRange".toList
  | .unknownMnemonic _ => "UnknownMnemonic".toList

/-- The code of a load error (R201). -/
def loadErrorCode : LoadError → Nat
  | .malformedInstruction _ _ _ => 101
  | .unresolvedLabel _ _ => 102
  | .imageTooLarge _ => 103
  | .programTooLarge _ => 104

/-- The name of a load error (R201). -/
def loadErrorName : LoadError → Text
  | .malformedInstruction _ _ _ => "MalformedInstruction".toList
  | .unresolvedLabel _ _ => "UnresolvedLabel".toList
  | .imageTooLarge _ => "ImageTooLarge".toList
  | .programTooLarge _ => "ProgramTooLarge".toList

/-- Taking a fault: the status becomes `Faulted` with the record of R203, and nothing else changes (R112, R202, R205). -/
def enterFault (s : State) (text : Text) (f : Fault) : State :=
  { s with status := .faulted { fault := f, pc := s.pc, text := text } }

/-- Leaving a fault: no instruction returns from one (R206). Only the reset that a load performs does, and it keeps nothing
but the parameters (R202, R220, R221 step 1). -/
def leaveByReset (s : State) : State := State.resetWith s.params

end Sys2Proof.Machine
end

