-- ==== Sys2Proof/Machine/Flags.lean ====
section
/-! DEFINITION. The flag clear and every flag computation (10_state.md R30; 40_engine.md R104; R126, R127, R160, R161). -/

namespace Sys2Proof.Machine

/-- All eight flags false. -/
def noFlags : Flags :=
  { l := false, le := false, e := false, ge := false, g := false, a := false, ae := false, z := false }

/-- `ClearFlags()` (R104). -/
def clearFlags (s : State) : State := { s with flags := noFlags }

/-- The flag clear before a data mnemonic that is no flag producer: only when `FLAG_CLEAR_SET` holds it (R101, R104). -/
def clearFor (op : Op) (s : State) : State := if s.params.flagClearSet.contains op then clearFlags s else s

/-- The flags after `inc`, `dec` and `test`: Equal and Zero say that the 32-bit result is 0, the others are cleared (R126,
R127, R160). -/
def zeroFlags (r : Word) : Flags :=
  let z := decide (r = 0)
  { l := false, le := false, e := z, ge := false, g := false, a := false, ae := false, z := z }

/-- The flags after `cmp`: `d` against `s`, signed and unsigned (R161). -/
def compareFlags (d s : Word) : Flags :=
  { l := BitVec.slt d s
    le := BitVec.sle d s
    e := decide (d = s)
    ge := BitVec.sle s d
    g := BitVec.slt s d
    a := BitVec.ult s d
    ae := BitVec.ule s d
    z := decide (d = s) }

def setFlags (s : State) (f : Flags) : State := { s with flags := f }

end Sys2Proof.Machine
end

