-- ==== Sys2Proof/Machine/Operands.lean ====
section
/-! DEFINITION. The operand resolver: effective address, operand read, operand write (40_engine.md R106 to R110), and the
accumulator pair of `mul` and `div` (43_lea_mul_div.md). -/

namespace Sys2Proof.Machine

/-- A base or index register's value, 0 where there is none (R106). -/
def addressPart (c : Cells) : Option View → Word
  | none => 0
  | some v => readView c v

/-- `EA(o)` (R106), modulo 2^32. -/
def effectiveAddress (c : Cells) (m : MemRef) : Word :=
  addressPart c m.base + addressPart c m.index * BitVec.ofNat 32 (factorOf m.scale) + m.disp

/-- The sign extension of a narrow memory read (R108). -/
def extendRead (size : Size) (r : Word) : Word :=
  match size with
  | .b => (r.setWidth 8).signExtend 32
  | .w => (r.setWidth 16).signExtend 32
  | .l => r

/-- The memory read of an operand of the declared size (R108). -/
def readMem (s : State) (size : Size) (m : MemRef) : Except Fault Word := do
  let r ← memRead s (effectiveAddress s.cells m) (bytesOf size)
  .ok (extendRead size r)

/-- `ReadOp(o, size)` (R108). -/
def readOp (s : State) (size : Size) : Operand → Except Fault Word
  | .reg v => .ok (readView s.cells v)
  | .imm k => .ok k
  | .mem m => readMem s size m

/-- `ReadOp` of an operand that is also written. -/
def readDest (s : State) (size : Size) (d : Dest) : Except Fault Word := readOp s size (destOperand d)

/-- `WriteOp(o, size, val)` (R109). -/
def writeOp (s : State) (size : Size) (d : Dest) (val : Word) : Except Fault State :=
  match d with
  | .reg v => .ok { s with cells := writeView s.cells v val }
  | .mem m => memWrite s (effectiveAddress s.cells m) (bytesOf size) val

/-- `w`, the declared width in bits (R13). -/
def bitsOf (size : Size) : Nat := 8 * bytesOf size

/-- The low view of the accumulator pair. -/
def pairLow : Size → View
  | .b => .al
  | .w => .ax
  | .l => .eax

/-- The high view of the accumulator pair. -/
def pairHigh : Size → View
  | .b => .ah
  | .w => .dx
  | .l => .edx

/-- Write the accumulator pair, low view first (R141, R142). -/
def writePair (s : State) (size : Size) (lo hi : Word) : State :=
  { s with cells := writeView (writeView s.cells (pairLow size) lo) (pairHigh size) hi }

end Sys2Proof.Machine
end

