-- ==== Sys2Proof/Machine/Compare.lean ====
section
/-! DEFINITION. test, cmp (45_compare.md). -/

namespace Sys2Proof.Machine

/-- The pseudocode that R160 and R161 share: two reads, then the flags. Both are flag producers (R104). -/
def compareHandler (f : Word → Word → Flags) (size : Size) (src dst : Operand) (s : State) : Except Fault State := do
  let s := clearFlags s
  let x ← readOp s size src
  let d ← readOp s size dst
  .ok (advance (setFlags s (f d x)))

/-- `test` (R160). -/
def execTest (size : Size) (src dst : Operand) (s : State) : Host.Outcome State Fault Refusal :=
  outcomeOf (compareHandler (fun d x => zeroFlags (d &&& x)) size src dst s)

/-- `cmp` (R161). -/
def execCmp (size : Size) (src dst : Operand) (s : State) : Host.Outcome State Fault Refusal :=
  outcomeOf (compareHandler compareFlags size src dst s)

end Sys2Proof.Machine
end

