-- ==== Sys2Proof/Machine/Stack.lean ====
section
/-! DEFINITION. push, pop (44_stack.md), and the slot push that `call` shares. -/

namespace Sys2Proof.Machine

/-- Store a 4-byte value in a new slot below `SP` (R150, R182). -/
def pushSlot (s : State) (v : Word) : Except Fault State := do
  let a := stackPointer s - 4
  let s ← memWrite s a 4 v
  .ok (setStackPointer s a)

/-- `push` (R150). -/
def execPush (size : Size) (src : Operand) (s : State) : Host.Outcome State Fault Refusal :=
  outcomeOf do
    let s := clearFor .push s
    let v ← readOp s size src
    let s ← pushSlot s v
    .ok (advance s)

/-- `pop` (R151): the destination's address comes from the registers at instruction start (R107). -/
def execPop (size : Size) (dst : Dest) (s : State) : Host.Outcome State Fault Refusal :=
  outcomeOf do
    let s := clearFor .pop s
    let v ← memRead s (stackPointer s) 4
    let a := stackPointer s + 4
    let s ← writeOp s size dst v
    .ok (advance (setStackPointer s a))

end Sys2Proof.Machine
end

