-- ==== Sys2Proof/Machine/Control.lean ====
section
/-! DEFINITION. jmp, the conditional jumps, loop, call, ret, int (46_control_flow.md). None of them clears or writes a flag
(R104). -/

namespace Sys2Proof.Machine

/-- `jmp` (R170). -/
def execJmp (t : Nat) (s : State) : Host.Outcome State Fault Refusal := .next (jumpTo s t)

/-- `if cond then pc <- t else pc <- pc + 1`. -/
def branch (cond : Bool) (t : Nat) (s : State) : State := if cond then jumpTo s t else advance s

/-- `jl` (R171). -/
def execJl (t : Nat) (s : State) : Host.Outcome State Fault Refusal := .next (branch s.flags.l t s)

/-- `jle` (R172). -/
def execJle (t : Nat) (s : State) : Host.Outcome State Fault Refusal := .next (branch s.flags.le t s)

/-- `je` (R173). -/
def execJe (t : Nat) (s : State) : Host.Outcome State Fault Refusal := .next (branch s.flags.e t s)

/-- `jge` (R174). -/
def execJge (t : Nat) (s : State) : Host.Outcome State Fault Refusal := .next (branch s.flags.ge t s)

/-- `jg` (R175). -/
def execJg (t : Nat) (s : State) : Host.Outcome State Fault Refusal := .next (branch s.flags.g t s)

/-- `ja` (R176). -/
def execJa (t : Nat) (s : State) : Host.Outcome State Fault Refusal := .next (branch s.flags.a t s)

/-- `jae` (R177). -/
def execJae (t : Nat) (s : State) : Host.Outcome State Fault Refusal := .next (branch s.flags.ae t s)

/-- `jne` (R178). -/
def execJne (t : Nat) (s : State) : Host.Outcome State Fault Refusal := .next (branch (!s.flags.e) t s)

/-- `jz` (R179). -/
def execJz (t : Nat) (s : State) : Host.Outcome State Fault Refusal := .next (branch s.flags.z t s)

/-- `jnz` (R180). -/
def execJnz (t : Nat) (s : State) : Host.Outcome State Fault Refusal := .next (branch (!s.flags.z) t s)

/-- `loop` (R181): the full 32-bit `ecx`. -/
def execLoop (t : Nat) (s : State) : Host.Outcome State Fault Refusal :=
  let c := readView s.cells .ecx - 1
  let s := { s with cells := writeView s.cells .ecx c }
  .next (branch (decide (c ≠ 0)) t s)

/-- `call` (R182): an internal call pushes the return index, an external one only advances. -/
def execCall (target : Target) (s : State) : Host.Outcome State Fault Refusal :=
  match target with
  | .internal t =>
    outcomeOf do
      let s ← pushSlot s (BitVec.ofNat 32 (s.pc + 1))
      .ok (jumpTo s t)
  | .external _ => .next (advance s)

/-- `ret` (R183): a popped index outside the program ends the run. -/
def execRet (s : State) : Host.Outcome State Fault Refusal :=
  outcomeOf do
    let v ← memRead s (stackPointer s) 4
    let s := setStackPointer s (stackPointer s + 4)
    .ok (jumpTo s (if v.toNat < programLength s then v.toNat else programLength s))

/-- `int` (R184): a pass-through. Its operand is not used. -/
def execInt (_imm : Word) (s : State) : Host.Outcome State Fault Refusal := .next (advance s)

end Sys2Proof.Machine
end

