-- ==== Sys2Proof/Machine/DataOps.lean ====
section
/-! DEFINITION. mov, add, sub, or, xor, and, inc, dec (41_move_arith_logic.md). -/

namespace Sys2Proof.Machine

/-- `mov` (R120). -/
def execMov (size : Size) (src : Operand) (dst : Dest) (s : State) : Host.Outcome State Fault Refusal :=
  outcomeOf do
    let s := clearFor .mov s
    let v ← readOp s size src
    let s ← writeOp s size dst v
    .ok (advance s)

/-- The pseudocode that R121 to R125 share: `f` computes the result from the destination and the source. -/
def aluHandler (op : Op) (f : Word → Word → Word) (size : Size) (src : Operand) (dst : Dest) (s : State) :
    Except Fault State := do
  let s := clearFor op s
  let x ← readOp s size src
  let d ← readDest s size dst
  let s ← writeOp s size dst (f d x)
  .ok (advance s)

/-- `add` (R121). -/
def execAdd (size : Size) (src : Operand) (dst : Dest) (s : State) : Host.Outcome State Fault Refusal :=
  outcomeOf (aluHandler .add (fun d x => d + x) size src dst s)

/-- `sub` (R122). -/
def execSub (size : Size) (src : Operand) (dst : Dest) (s : State) : Host.Outcome State Fault Refusal :=
  outcomeOf (aluHandler .sub (fun d x => d - x) size src dst s)

/-- `or` (R123). -/
def execOr (size : Size) (src : Operand) (dst : Dest) (s : State) : Host.Outcome State Fault Refusal :=
  outcomeOf (aluHandler .or (fun d x => d ||| x) size src dst s)

/-- `xor` (R124). -/
def execXor (size : Size) (src : Operand) (dst : Dest) (s : State) : Host.Outcome State Fault Refusal :=
  outcomeOf (aluHandler .xor (fun d x => d ^^^ x) size src dst s)

/-- `and` (R125). -/
def execAnd (size : Size) (src : Operand) (dst : Dest) (s : State) : Host.Outcome State Fault Refusal :=
  outcomeOf (aluHandler .and (fun d x => d &&& x) size src dst s)

/-- The pseudocode that R126 and R127 share. Both are flag producers, so the clear of R104 always runs. -/
def stepHandler (f : Word → Word) (size : Size) (dst : Dest) (s : State) : Except Fault State := do
  let s := clearFlags s
  let d ← readDest s size dst
  let r := f d
  let s ← writeOp s size dst r
  .ok (advance (setFlags s (zeroFlags r)))

/-- `inc` (R126). -/
def execInc (size : Size) (dst : Dest) (s : State) : Host.Outcome State Fault Refusal :=
  outcomeOf (stepHandler (fun d => d + 1) size dst s)

/-- `dec` (R127). -/
def execDec (size : Size) (dst : Dest) (s : State) : Host.Outcome State Fault Refusal :=
  outcomeOf (stepHandler (fun d => d - 1) size dst s)

end Sys2Proof.Machine
end

