-- ==== Sys2Proof/Machine/MulDiv.lean ====
section
/-! DEFINITION. lea, mul, div (43_lea_mul_div.md). -/

namespace Sys2Proof.Machine

/-- `lea` (R140): the address itself, with no access and no bounds check. -/
def execLea (size : Size) (src : MemRef) (dst : Dest) (s : State) : Host.Outcome State Fault Refusal :=
  outcomeOf do
    let s := clearFor .lea s
    let s ← writeOp s size dst (effectiveAddress s.cells src)
    .ok (advance s)

/-- The exact product of `mul` (R141): unsigned, on the low `w` bits; for size 4 under `MUL32_HIGH = signed`, the signed
product modulo 2^64. -/
def product (p : Params) (size : Size) (acc x : Word) : Nat :=
  match size, p.mul32High with
  | .l, .signed => ((acc.toInt * x.toInt) % (2 ^ 64 : Int)).toNat
  | _, _ => acc.toNat * (x.toNat % 2 ^ bitsOf size)

/-- `mul` (R141). -/
def execMul (size : Size) (src : Operand) (s : State) : Host.Outcome State Fault Refusal :=
  outcomeOf do
    let s := clearFor .mul s
    let x ← readOp s size src
    let p := product s.params size (readView s.cells (pairLow size)) x
    .ok (advance (writePair s size (BitVec.ofNat 32 (p % 2 ^ bitsOf size)) (BitVec.ofNat 32 (p / 2 ^ bitsOf size))))

/-- The dividend `hi:lo` (R142). -/
def dividend (c : Cells) (size : Size) : Nat :=
  (readView c (pairHigh size)).toNat * 2 ^ bitsOf size + (readView c (pairLow size)).toNat

/-- `div` (R142). -/
def execDiv (size : Size) (src : Operand) (s : State) : Host.Outcome State Fault Refusal :=
  outcomeOf do
    let s := clearFor .div s
    let x ← readOp s size src
    let v := x.toNat % 2 ^ bitsOf size
    let n := dividend s.cells size
    if v = 0 then .error (.divideByZero s.pc)
    else if 2 ^ bitsOf size ≤ n / v then .error (.divideOverflow (n / v))
    else .ok (advance (writePair s size (BitVec.ofNat 32 (n / v)) (BitVec.ofNat 32 (n % v))))

end Sys2Proof.Machine
end

