-- ==== Sys2Proof/Machine/Shift.lean ====
section
/-! DEFINITION. shl, shr, sar (42_shift.md). -/

namespace Sys2Proof.Machine

/-- The pseudocode that R131 to R133 share: both reads, then the count check of R130, then the write. -/
def shiftHandler (op : Op) (f : Word → Nat → Word) (size : Size) (src : Operand) (dst : Dest) (s : State) :
    Except Fault State := do
  let s := clearFor op s
  let c ← readOp s size src
  let d ← readDest s size dst
  if 31 < c.toNat then .error (.shiftCountOutOfRange c)
  else do
    let s ← writeOp s size dst (f d c.toNat)
    .ok (advance s)

/-- `shl` (R131). -/
def execShl (size : Size) (src : Operand) (dst : Dest) (s : State) : Host.Outcome State Fault Refusal :=
  outcomeOf (shiftHandler .shl (fun d n => d <<< n) size src dst s)

/-- `shr` (R132). -/
def execShr (size : Size) (src : Operand) (dst : Dest) (s : State) : Host.Outcome State Fault Refusal :=
  outcomeOf (shiftHandler .shr (fun d n => d >>> n) size src dst s)

/-- `sar` (R133). -/
def execSar (size : Size) (src : Operand) (dst : Dest) (s : State) : Host.Outcome State Fault Refusal :=
  outcomeOf (shiftHandler .sar (fun d n => d.sshiftRight n) size src dst s)

end Sys2Proof.Machine
end

