-- ==== Sys2Proof/Machine/Dispatch.lean ====
section
/-! DEFINITION. The dispatcher: one arm per constructor of Instr (40_engine.md R105). -/

namespace Sys2Proof.Machine

def exec (i : Instr) (s : State) : Host.Outcome State Fault Refusal :=
  match i with
  | .mov size src dst => Sys2Proof.Machine.execMov size src dst s
  | .add size src dst => Sys2Proof.Machine.execAdd size src dst s
  | .sub size src dst => Sys2Proof.Machine.execSub size src dst s
  | .or size src dst => Sys2Proof.Machine.execOr size src dst s
  | .xor size src dst => Sys2Proof.Machine.execXor size src dst s
  | .and size src dst => Sys2Proof.Machine.execAnd size src dst s
  | .inc size dst => Sys2Proof.Machine.execInc size dst s
  | .dec size dst => Sys2Proof.Machine.execDec size dst s
  | .shl size src dst => Sys2Proof.Machine.execShl size src dst s
  | .shr size src dst => Sys2Proof.Machine.execShr size src dst s
  | .sar size src dst => Sys2Proof.Machine.execSar size src dst s
  | .lea size src dst => Sys2Proof.Machine.execLea size src dst s
  | .mul size src => Sys2Proof.Machine.execMul size src s
  | .div size src => Sys2Proof.Machine.execDiv size src s
  | .push size src => Sys2Proof.Machine.execPush size src s
  | .pop size dst => Sys2Proof.Machine.execPop size dst s
  | .test size src dst => Sys2Proof.Machine.execTest size src dst s
  | .cmp size src dst => Sys2Proof.Machine.execCmp size src dst s
  | .jmp t => Sys2Proof.Machine.execJmp t s
  | .jl t => Sys2Proof.Machine.execJl t s
  | .jle t => Sys2Proof.Machine.execJle t s
  | .je t => Sys2Proof.Machine.execJe t s
  | .jge t => Sys2Proof.Machine.execJge t s
  | .jg t => Sys2Proof.Machine.execJg t s
  | .ja t => Sys2Proof.Machine.execJa t s
  | .jae t => Sys2Proof.Machine.execJae t s
  | .jne t => Sys2Proof.Machine.execJne t s
  | .jz t => Sys2Proof.Machine.execJz t s
  | .jnz t => Sys2Proof.Machine.execJnz t s
  | .loop t => Sys2Proof.Machine.execLoop t s
  | .call target => Sys2Proof.Machine.execCall target s
  | .ret => Sys2Proof.Machine.execRet s
  | .int imm => Sys2Proof.Machine.execInt imm s

end Sys2Proof.Machine
end

