-- ==== Sys2Proof/Machine/Engine.lean ====
section
/-! DEFINITION. One step of the engine around the handlers: bypassed and unknown lines, the trace event, the end of the run,
and taking a fault (40_engine.md R101 to R105, R112, R116; 70_reset_and_hazards.md R225). -/

namespace Sys2Proof.Machine

/-- An unknown mnemonic (R103). -/
def execUnknown (text : Text) (s : State) : Host.Outcome State Fault Refusal :=
  match s.params.unknownPolicy with
  | .skip => .next (advance { s with diags := s.diags ++ [{ pc := s.pc, text := text }] })
  | .fault => .fault (.unknownMnemonic s.pc)

/-- A bypassed line (R102). -/
def execBypassed (s : State) : Host.Outcome State Fault Refusal := .next (advance s)

/-- The effect of one record (R101). -/
def execRecord (r : Record) (s : State) : Host.Outcome State Fault Refusal :=
  match r.kind with
  | .bypassed => execBypassed s
  | .unknown => execUnknown r.text s
  | .known i => exec i s

/-- The kind of the trace event of an executed instruction (R116). -/
def instrTraceKind : Instr → TraceKind
  | .call (.external _) => .externalCall
  | .int _ => .passThroughInt
  | _ => .executed

def traceKindOf (r : Record) : TraceKind :=
  match r.kind with
  | .bypassed => .bypassed
  | .unknown => .unknown
  | .known i => instrTraceKind i

/-- The trace event of a record executed at `pc` (R116). -/
def traceEventOf (pc : Nat) (r : Record) : TraceEvent :=
  { pc := pc, kind := traceKindOf r, hasMem := hasMem r, text := r.text }

/-- The trace event, then the end of the run when `pc = N` (R101, R225). -/
def finishStep (e : TraceEvent) (s : State) : State :=
  { s with trace := s.trace ++ [e], status := if s.pc = programLength s then .halted else s.status }

/-- What a step makes of a record's outcome: a completed step is finished, a fault is taken in the state before the step
(R101, R112, R202). -/
def settle (r : Record) (s : State) (o : Host.Outcome State Fault Refusal) : Host.Outcome State Fault Refusal :=
  match o with
  | .next s' => .next (finishStep (traceEventOf s.pc r) s')
  | .fault f => .next (enterFault s r.text f)
  | .refused q => .refused q

/-- A step while the status is Running: enabled when `pc < N` (R101). -/
def stepRunning (s : State) : Host.Outcome State Fault Refusal :=
  match s.program.code[s.pc]? with
  | some r => settle r s (execRecord r s)
  | none => .refused (.noInstructionAt s.pc)

/-- A step request (R34, R101, R202): enabled in Running only. In `Faulted` it answers with the recorded fault (log
entries 5 and 6). -/
def stepRequest (s : State) : Host.Outcome State Fault Refusal :=
  match s.status with
  | .running => stepRunning s
  | .halted => .refused .runHalted
  | .faulted record => .fault record.fault
  | .loadRefused e => .refused (.noRunnableProgram e)

end Sys2Proof.Machine
end

