-- ==== Sys2Proof/WellFormed.lean ====
section
/-! DEFINITION. Which instruction terms a decoder can produce under given label tables (30_encoding.md R83 to R87, R94). The
other restrictions of R77, R85, R90 and R91 hold of every term, by its type. -/

namespace Sys2Proof

open Sys2Proof.Machine

/-- The label tables a load port delivers for a program of `n` lines: text labels within `0 .. n` (R222), every label an
identifier (R87, R89) and bound once ("write-once per program load", R32). Any list of names may be external. -/
def Tables.wf (n : Nat) (tb : Tables) : Bool :=
  tb.textLabels.all (fun e => isIdent e.1 && e.2 ≤ n) && decide (tb.textLabels.map Prod.fst).Nodup &&
  tb.dataLabels.all (fun e => isIdent e.1) && decide (tb.dataLabels.map Prod.fst).Nodup

/-- The memory forms of R83, R84 and R87: a 32-bit base, alone or with a 32-bit index and a scale, or the base address of
a data label with no register. -/
def MemRef.wf (tb : Tables) (m : MemRef) : Bool :=
  match m.base with
  | none => m.index.isNone && m.scale == .x1 && tb.dataLabels.any (fun e => e.2.base == m.disp)
  | some b =>
    widthOf b == 32 &&
    match m.index with
    | none => m.scale == .x1
    | some i => widthOf i == 32

def Operand.wf (tb : Tables) : Operand → Bool
  | .reg _ | .imm _ => true
  | .mem m => m.wf tb

/-- R94: an internal target is some text label's index; an external one is an `EXTERN_SET` name that is no text label, and
an identifier (R89). -/
def Target.wf (tb : Tables) : Target → Bool
  | .internal t => tb.textLabels.any (fun e => e.2 == t)
  | .external name => isIdent name && tb.externs.contains name && (lookupName name tb.textLabels).isNone

/-- Every operand and the target, if there is one, is well formed. -/
def Instr.wf (tb : Tables) (i : Instr) : Bool :=
  (operandsOf i).all (Operand.wf tb) &&
  match targetOf i with
  | none => true
  | some t => t.wf tb

end Sys2Proof
end

