-- ==== Sys2Proof/Decode.lean ====
section
/-! DEFINITION. The decoder of one instruction line (30_encoding.md R70 to R97), total on any text, and after it the
encoder that spells a well-formed instruction. -/

namespace Sys2Proof

open Sys2Proof.Machine

/-! ### Mnemonics (R71 to R74, R93) -/

/-- The mnemonic's spelling, as R93's table has it. -/
def spelling : Op → Text
  | .mov => "mov".toList
  | .add => "add".toList
  | .sub => "sub".toList
  | .or => "or".toList
  | .xor => "xor".toList
  | .and => "and".toList
  | .inc => "inc".toList
  | .dec => "dec".toList
  | .shl => "shl".toList
  | .shr => "shr".toList
  | .sar => "sar".toList
  | .lea => "lea".toList
  | .mul => "mul".toList
  | .div => "div".toList
  | .push => "push".toList
  | .pop => "pop".toList
  | .test => "test".toList
  | .cmp => "cmp".toList
  | .jmp => "jmp".toList
  | .jl => "jl".toList
  | .jle => "jle".toList
  | .je => "je".toList
  | .jge => "jge".toList
  | .jg => "jg".toList
  | .ja => "ja".toList
  | .jae => "jae".toList
  | .jne => "jne".toList
  | .jz => "jz".toList
  | .jnz => "jnz".toList
  | .loop => "loop".toList
  | .call => "call".toList
  | .ret => "ret".toList
  | .int => "int".toList

def allOps : List Op :=
  [.mov, .add, .sub, .or, .xor, .and, .inc, .dec, .shl, .shr, .sar, .lea, .mul, .div, .push, .pop, .test, .cmp,
   .jmp, .jl, .jle, .je, .jge, .jg, .ja, .jae, .jne, .jz, .jnz, .loop, .call, .ret, .int]

/-- The class column of R93: a data mnemonic accepts a suffix, a control mnemonic does not. -/
def isDataOp : Op → Bool
  | .mov | .add | .sub | .or | .xor | .and | .inc | .dec | .shl | .shr | .sar | .lea | .mul | .div
  | .push | .pop | .test | .cmp => true
  | .jmp | .jl | .jle | .je | .jge | .jg | .ja | .jae | .jne | .jz | .jnz | .loop | .call | .ret | .int => false

def baseOp (t : Text) : Option Op := allOps.find? (fun o => decide (spelling o = t))

/-- R72. -/
def suffixSize (c : Char) : Option Size :=
  if c = 'b' then some .b else if c = 'w' then some .w else if c = 'l' then some .l else none

/-- What the mnemonic token is (R71). -/
inductive MnemonicToken where
  | known (op : Op) (size : Size)
  | suffixedControl
  | unknown
deriving DecidableEq, Repr

/-- Steps 2 to 4 of R71, for a token that is no base mnemonic. -/
def classifySuffixed (t : Text) : MnemonicToken :=
  match t.getLast?.bind suffixSize, baseOp t.dropLast with
  | some size, some op => if isDataOp op then .known op size else .suffixedControl
  | _, _ => .unknown

/-- R71: an exact base mnemonic first, then a stem with a suffix. -/
def classify (t : Text) : MnemonicToken :=
  match baseOp t with
  | some op => .known op .l
  | none => classifySuffixed t

/-- The mnemonic token of a line (R70). -/
def mnemonicToken (line : Text) : Text := (line.dropWhile isSpace).takeWhile (fun c => !isSpace c)

/-- Everything after the mnemonic token (R70). -/
def operandText (line : Text) : Text := (line.dropWhile isSpace).dropWhile (fun c => !isSpace c)

/-! ### Operand tokens (R75) -/

/-- The single quote, `'`. -/
def quoteChar : Char := Char.ofNat 39

/-- The backslash. -/
def backslash : Char := Char.ofNat 92

/-- R75's split. `depth` counts open parentheses, `quoted` says that a quote is open, and `cur` is the current token in
reverse. White space is dropped, but for white space between quotes (log entry 9). -/
def splitTokens (depth : Nat) (quoted : Bool) (cur : Text) : Text → List Text
  | [] => [cur.reverse]
  | c :: cs =>
    if c = quoteChar then splitTokens depth (!quoted) (c :: cur) cs
    else if quoted then splitTokens depth quoted (c :: cur) cs
    else if isSpace c then splitTokens depth quoted cur cs
    else if c = ',' then
      if depth = 0 then cur.reverse :: splitTokens 0 false [] cs
      else splitTokens depth quoted (c :: cur) cs
    else if c = '(' then splitTokens (depth + 1) quoted (c :: cur) cs
    else if c = ')' then splitTokens (depth - 1) quoted (c :: cur) cs
    else splitTokens depth quoted (c :: cur) cs

/-- The operand tokens of an operand text: none for a blank text, and an empty token is malformed (R75). -/
def operandTokens (rest : Text) : Except Check (List Text) :=
  let tokens := splitTokens 0 false [] rest
  if tokens = [[]] then .ok []
  else if tokens.any List.isEmpty then .error .emptyToken
  else .ok tokens

/-! ### Literals (R78, R79) -/

def hexValue (c : Char) : Option Nat :=
  let n := c.toNat
  if 48 ≤ n ∧ n ≤ 57 then some (n - 48)
  else if 97 ≤ n ∧ n ≤ 102 then some (n - 87)
  else if 65 ≤ n ∧ n ≤ 70 then some (n - 55)
  else none

/-- A digit of the given radix, 2, 10 or 16. -/
def digitValue (radix : Nat) (c : Char) : Option Nat :=
  match hexValue c with
  | some d => if d < radix then some d else none
  | none => none

/-- The number a run of digits writes, continuing from `acc`. -/
def parseDigits (radix : Nat) (acc : Nat) : Text → Option Nat
  | [] => some acc
  | c :: cs =>
    match digitValue radix c with
    | some d => parseDigits radix (acc * radix + d) cs
    | none => none

/-- A run of at least one digit. -/
def parseRun (radix : Nat) (t : Text) : Option Nat :=
  if t.isEmpty then none else parseDigits radix 0 t

/-- `dec | '0x' hex-digits | '0b' bin-digits`, `dec` without a leading zero (R78). -/
def parseMagnitude (t : Text) : Option Nat :=
  match t with
  | [] => none
  | [c] => digitValue 10 c
  | c :: c' :: ds =>
    if c = '0' then
      if c' = 'x' then parseRun 16 ds
      else if c' = 'b' then parseRun 2 ds
      else none
    else parseRun 10 (c :: c' :: ds)

/-- An integer literal (R78). -/
def parseLiteral (t : Text) : Option Int :=
  match t with
  | [] => none
  | c :: cs =>
    if c = '-' then (parseMagnitude cs).map (fun n : Nat => -(n : Int))
    else (parseMagnitude t).map (fun n : Nat => (n : Int))

/-- R79: the value lies in `[-2^31, 2^31 - 1]` and is stored as its 32-bit pattern. -/
def literalWord (v : Int) : Except Check Word :=
  if -2147483648 ≤ v ∧ v ≤ 2147483647 then .ok (BitVec.ofInt 32 v) else .error .literalRange

/-! ### Operands (R80 to R87) -/

/-- The spelling of a view, after `%` (R23, R82). -/
def viewName : View → Text
  | .eax => "eax".toList
  | .ax => "ax".toList
  | .ah => "ah".toList
  | .al => "al".toList
  | .ebx => "ebx".toList
  | .bx => "bx".toList
  | .bh => "bh".toList
  | .bl => "bl".toList
  | .ecx => "ecx".toList
  | .cx => "cx".toList
  | .ch => "ch".toList
  | .cl => "cl".toList
  | .edx => "edx".toList
  | .dx => "dx".toList
  | .dh => "dh".toList
  | .dl => "dl".toList
  | .esi => "esi".toList
  | .edi => "edi".toList
  | .esp => "esp".toList
  | .ebp => "ebp".toList

/-- A register token (R82). -/
def parseRegister (t : Text) : Except Check View :=
  match t with
  | [] => .error .badRegister
  | c :: name =>
    if c = '%' then
      match allViews.find? (fun v => decide (viewName v = name)) with
      | some v => .ok v
      | none => .error .badRegister
    else .error .badRegister

/-- A base or index register: a register token naming a 32-bit view (R84). -/
def parseAddressRegister (t : Text) : Except Check View :=
  match parseRegister t with
  | .ok v => if widthOf v = 32 then .ok v else .error .narrowAddress
  | .error e => .error e

/-- `'c'` after the `$` (R81). -/
def parseCharacter (t : Text) : Except Check Word :=
  match t with
  | [q, c, q'] =>
    if q = quoteChar ∧ q' = quoteChar ∧ 32 ≤ c.toNat ∧ c.toNat ≤ 126 ∧ c ≠ quoteChar ∧ c ≠ backslash then
      .ok (BitVec.ofNat 32 c.toNat)
    else .error .badCharacter
  | _ => .error .badCharacter

/-- The failed check of an immediate that is no literal, character or data label: it is taken for a literal when it begins
as one. -/
def unreadImmediate (t : Text) : Check :=
  match t with
  | [] => .badImmediate
  | c :: _ => if isDigit c || c == '-' then .badLiteral else .badImmediate

/-- An immediate token after its `$`: a literal, a character or a data-label name (R80). -/
def parseImmediate (tb : Tables) (t : Text) : Except Check Word :=
  match parseLiteral t with
  | some v => literalWord v
  | none =>
    if t.head? = some quoteChar then parseCharacter t
    else
      match lookupName t tb.dataLabels with
      | some d => .ok d.base
      | none => .error (unreadImmediate t)

/-- R85. -/
def parseScale (t : Text) : Except Check Scale :=
  if t = ['1'] then .ok .x1
  else if t = ['2'] then .ok .x2
  else if t = ['4'] then .ok .x4
  else if t = ['8'] then .ok .x8
  else .error .badScale

/-- Split at every comma. -/
def splitCommas (cur : Text) : Text → List Text
  | [] => [cur.reverse]
  | c :: cs => if c = ',' then cur.reverse :: splitCommas [] cs else splitCommas (c :: cur) cs

/-- The displacement before the parenthesis: absent, or an integer literal (R83, R86). -/
def parseDisp (t : Text) : Except Check Word :=
  if t.isEmpty then .ok 0
  else
    match parseLiteral t with
    | some v => literalWord v
    | none => .error .badLiteral

/-- What stands between the parentheses: `B` or `B,I,S` (R83). The number of parts is checked first, then base, index and scale
(DESIGN CHOICE, log entry 24). -/
def parseAddress (disp : Word) (parts : List Text) : Except Check MemRef :=
  match parts with
  | [b] => do
    let base ← parseAddressRegister b
    .ok { base := some base, index := none, scale := .x1, disp := disp }
  | [b, i, s] => do
    let base ← parseAddressRegister b
    let index ← parseAddressRegister i
    let scale ← parseScale s
    .ok { base := some base, index := some index, scale := scale, disp := disp }
  | _ => .error .badMemoryForm

/-- A memory token with parentheses (R83). Where it fails several checks, the one recorded is the first of: the closing
parenthesis, the displacement, what stands between the parentheses (DESIGN CHOICE, log entry 24). -/
def parseMemory (t : Text) : Except Check MemRef :=
  let inner := (t.dropWhile (fun c => c != '(')).drop 1
  if inner.getLast? = some ')' then do
    let disp ← parseDisp (t.takeWhile (fun c => c != '('))
    parseAddress disp (splitCommas [] inner.dropLast)
  else .error .badMemoryForm

/-- The memory operand of a bare data label (R87). -/
def labelRef (d : DataLabel) : MemRef := { base := none, index := none, scale := .x1, disp := d.base }

/-- One data-operand token (R80, R82, R83, R87). -/
def parseOperand (tb : Tables) (t : Text) : Except Check Operand :=
  match t with
  | [] => .error .emptyToken
  | c :: cs =>
    if c = '%' then (parseRegister t).map .reg
    else if c = '$' then (parseImmediate tb cs).map .imm
    else if t.contains '(' then (parseMemory t).map .mem
    else if isIdent t then
      match lookupName t tb.dataLabels with
      | some d => .ok (.mem (labelRef d))
      | none => .error .badOperand
    else .error .badOperand

/-- R90: an immediate in a written position is malformed. -/
def asDest : Operand → Except Check Dest
  | .reg v => .ok (.reg v)
  | .mem m => .ok (.mem m)
  | .imm _ => .error .immediateDestination

/-- R91: the source of `lea` is a memory operand. -/
def asMemory : Operand → Except Check MemRef
  | .mem m => .ok m
  | .reg _ | .imm _ => .error .leaSource

/-! ### Formats (R77). Within a line the count comes first, then the tokens from left to right, then the classes, then
label resolution (R204). -/

def liftCheck {α : Type} : Except Check α → Except LineError α
  | .ok a => .ok a
  | .error e => .error (.malformed e)

/-- `T2W`. -/
def formatT2W (tb : Tables) (mk : Operand → Dest → Instr) (tokens : List Text) : Except Check Instr :=
  match tokens with
  | [a, b] => do
    let src ← parseOperand tb a
    let dst ← parseOperand tb b
    let d ← asDest dst
    .ok (mk src d)
  | _ => .error .operandCount

/-- `T2A`. Where both operand classes fail, the source's is the one recorded (DESIGN CHOICE, log entry 25). -/
def formatT2A (tb : Tables) (mk : MemRef → Dest → Instr) (tokens : List Text) : Except Check Instr :=
  match tokens with
  | [a, b] => do
    let src ← parseOperand tb a
    let dst ← parseOperand tb b
    let m ← asMemory src
    let d ← asDest dst
    .ok (mk m d)
  | _ => .error .operandCount

/-- `T2R`. -/
def formatT2R (tb : Tables) (mk : Operand → Operand → Instr) (tokens : List Text) : Except Check Instr :=
  match tokens with
  | [a, b] => do
    let src ← parseOperand tb a
    let dst ← parseOperand tb b
    .ok (mk src dst)
  | _ => .error .operandCount

/-- `T1W`. -/
def formatT1W (tb : Tables) (mk : Dest → Instr) (tokens : List Text) : Except Check Instr :=
  match tokens with
  | [a] => do
    let dst ← parseOperand tb a
    let d ← asDest dst
    .ok (mk d)
  | _ => .error .operandCount

/-- `T1R`. -/
def formatT1R (tb : Tables) (mk : Operand → Instr) (tokens : List Text) : Except Check Instr :=
  match tokens with
  | [a] => do
    let src ← parseOperand tb a
    .ok (mk src)
  | _ => .error .operandCount

/-- `T0`. -/
def formatT0 (i : Instr) (tokens : List Text) : Except Check Instr :=
  if tokens.isEmpty then .ok i else .error .operandCount

/-- `TI` (log entry 12). -/
def formatTI (tb : Tables) (mk : Word → Instr) (tokens : List Text) : Except Check Instr :=
  match tokens with
  | [a] => do
    let src ← parseOperand tb a
    match src with
    | .imm k => .ok (mk k)
    | .reg _ | .mem _ => .error .operandClass
  | _ => .error .operandCount

/-- The branch-target token of `TL` (R89). -/
def targetToken (tokens : List Text) : Except Check Label :=
  match tokens with
  | [name] => if isIdent name then .ok name else .error .badTarget
  | _ => .error .operandCount

/-- `TL` of a jump or loop: the name is a text label (R94). Any other name is unresolved, also one that is a data label only:
R94 says so, where D38 calls a name in the wrong table malformed (DEDUCED, log entry 23). -/
def formatTL (tb : Tables) (mk : Nat → Instr) (tokens : List Text) : Except LineError Instr := do
  let name ← liftCheck (targetToken tokens)
  match lookupName name tb.textLabels with
  | some t => .ok (mk t)
  | none => .error (.unresolved name)

/-- `TL` of `call`: a text label, else an external name (R94), else unresolved, also for a data label (log entry 23). -/
def formatCall (tb : Tables) (mk : Target → Instr) (tokens : List Text) : Except LineError Instr := do
  let name ← liftCheck (targetToken tokens)
  match lookupName name tb.textLabels with
  | some t => .ok (mk (.internal t))
  | none => if tb.externs.contains name then .ok (mk (.external name)) else .error (.unresolved name)

/-- The rows of R93: each mnemonic with its format. -/
def decodeOperands (tb : Tables) (op : Op) (size : Size) (tokens : List Text) : Except LineError Instr :=
  match op with
  | .mov => liftCheck (formatT2W tb (.mov size) tokens)
  | .add => liftCheck (formatT2W tb (.add size) tokens)
  | .sub => liftCheck (formatT2W tb (.sub size) tokens)
  | .or => liftCheck (formatT2W tb (.or size) tokens)
  | .xor => liftCheck (formatT2W tb (.xor size) tokens)
  | .and => liftCheck (formatT2W tb (.and size) tokens)
  | .inc => liftCheck (formatT1W tb (.inc size) tokens)
  | .dec => liftCheck (formatT1W tb (.dec size) tokens)
  | .shl => liftCheck (formatT2W tb (.shl size) tokens)
  | .shr => liftCheck (formatT2W tb (.shr size) tokens)
  | .sar => liftCheck (formatT2W tb (.sar size) tokens)
  | .lea => liftCheck (formatT2A tb (.lea size) tokens)
  | .mul => liftCheck (formatT1R tb (.mul size) tokens)
  | .div => liftCheck (formatT1R tb (.div size) tokens)
  | .push => liftCheck (formatT1R tb (.push size) tokens)
  | .pop => liftCheck (formatT1W tb (.pop size) tokens)
  | .test => liftCheck (formatT2R tb (.test size) tokens)
  | .cmp => liftCheck (formatT2R tb (.cmp size) tokens)
  | .jmp => formatTL tb .jmp tokens
  | .jl => formatTL tb .jl tokens
  | .jle => formatTL tb .jle tokens
  | .je => formatTL tb .je tokens
  | .jge => formatTL tb .jge tokens
  | .jg => formatTL tb .jg tokens
  | .ja => formatTL tb .ja tokens
  | .jae => formatTL tb .jae tokens
  | .jne => formatTL tb .jne tokens
  | .jz => formatTL tb .jz tokens
  | .jnz => formatTL tb .jnz tokens
  | .loop => formatTL tb .loop tokens
  | .call => formatCall tb .call tokens
  | .ret => liftCheck (formatT0 .ret tokens)
  | .int => liftCheck (formatTI tb .int tokens)

/-- The instruction names `esp`, and `%esp` contains the bypass pattern. -/
def namesBypassedEsp (p : Params) (i : Instr) : Bool :=
  containsText p.bypassPattern ('%' :: viewName .esp) && (operandsOf i).any (namesView .esp)

/-- The record of an instruction decoded from a line without the pattern: Known (R92), but for one that names `esp`, which
goes by `SpacedEsp` (DESIGN CHOICE, log entry 11). -/
def kindOf (p : Params) (i : Instr) : Except LineError Kind :=
  if namesBypassedEsp p i then
    match p.spacedEsp with
    | .refuse => .error (.malformed .spacedEsp)
    | .run => .ok (.known i)
    | .bypass => .ok .bypassed
  else .ok (.known i)

/-- A line whose text does not contain the pattern: mnemonic and suffix, then the operands (R71 to R94, in the order of R204).
The operand text of an unknown mnemonic is not examined (R74). -/
def decodeUnbypassed (p : Params) (tb : Tables) (line : Text) : Except LineError Kind :=
  match classify (mnemonicToken line) with
  | .unknown => .ok .unknown
  | .suffixedControl => .error (.malformed .suffixOnControl)
  | .known op size => do
    let tokens ← liftCheck (operandTokens (operandText line))
    let i ← decodeOperands tb op size tokens
    kindOf p i

/-- One line's decoding (R92): a line that contains the bypass pattern is not examined further (R102). -/
def decodeLine (p : Params) (tb : Tables) (line : Text) : Except LineError Kind :=
  if containsText p.bypassPattern line then .ok .bypassed else decodeUnbypassed p tb line

/-! ### Encoder: one canonical spelling of each well-formed instruction (log entry 20) -/

/-- One lower-case hexadecimal digit. -/
def hexDigit (d : Nat) : Char := if d < 10 then Char.ofNat (48 + d) else Char.ofNat (87 + d)

/-- `0x` and `k` hexadecimal digits, the most significant first. -/
def hexDigits (n : Nat) : Nat → Text
  | 0 => []
  | k + 1 => hexDigit (n / 16 ^ k % 16) :: hexDigits n k

/-- A 32-bit pattern as an integer literal: its signed value, with eight hexadecimal digits (R78, R79). -/
def literalText (k : Word) : Text :=
  if k.toInt < 0 then '-' :: '0' :: 'x' :: hexDigits k.toInt.natAbs 8
  else '0' :: 'x' :: hexDigits k.toInt.natAbs 8

def registerText (v : View) : Text := '%' :: viewName v

def scaleText : Scale → Text
  | .x1 => ['1']
  | .x2 => ['2']
  | .x4 => ['4']
  | .x8 => ['8']

/-- The name of the first entry with the given property. -/
def nameWith {α : Type} (p : α → Bool) (table : List (Label × α)) : Option Label :=
  (table.find? (fun e => p e.2)).map Prod.fst

def memoryText (tb : Tables) (m : MemRef) : Option Text :=
  match m.base with
  | none => nameWith (fun d => d.base == m.disp) tb.dataLabels
  | some b =>
    match m.index with
    | none => some (literalText m.disp ++ '(' :: registerText b ++ [')'])
    | some i =>
      some (literalText m.disp ++ '(' :: registerText b ++ ',' :: registerText i ++ ',' :: scaleText m.scale ++ [')'])

def encodeOperand (tb : Tables) : Operand → Option Text
  | .reg v => some (registerText v)
  | .imm k => some ('$' :: literalText k)
  | .mem m => memoryText tb m

def encodeTarget (tb : Tables) : Target → Option Text
  | .internal t => nameWith (fun n => n == t) tb.textLabels
  | .external name => some name

def suffixChar : Size → Char
  | .b => 'b'
  | .w => 'w'
  | .l => 'l'

/-- The mnemonic token the encoder writes: always with a suffix on a data mnemonic. -/
def mnemonicText (i : Instr) : Text :=
  if isDataOp (opOf i) then spelling (opOf i) ++ [suffixChar (declaredSize i)] else spelling (opOf i)

/-- The operand tokens the encoder writes. -/
def encodeTokens (tb : Tables) (i : Instr) : Option (List Text) :=
  match targetOf i with
  | some t => (encodeTarget tb t).map (fun n => [n])
  | none =>
    match operandsOf i with
    | [] => some []
    | [a] => (encodeOperand tb a).map (fun x => [x])
    | a :: b :: _ => (encodeOperand tb a).bind fun x => (encodeOperand tb b).map fun y => [x, y]

/-- Tokens with commas between them. -/
def joinTokens : List Text → Text
  | [] => []
  | [t] => t
  | t :: t' :: ts => t ++ ',' :: joinTokens (t' :: ts)

/-- The line that spells an instruction under the tables' names; none where a name is missing, which never happens to a
well-formed instruction. -/
def encode (tb : Tables) (i : Instr) : Option Text :=
  (encodeTokens tb i).map fun tokens =>
    if tokens.isEmpty then mnemonicText i else mnemonicText i ++ ' ' :: joinTokens tokens

/-! ### Lines given as numbers (log entries 2 and 4) -/

/-- The characters of a number, eight bits each, the first character in the least significant bits. -/
def wordChars (w : Nat) : Nat → Text
  | 0 => []
  | k + 1 => Char.ofNat (w % 256) :: wordChars (w / 256) k

/-- A line given as `nbits` bits: its characters up to the first zero byte. -/
def wordText (nbits w : Nat) : Text := (wordChars w (nbits / 8)).takeWhile (fun c => c.toNat != 0)

/-- The names a line mentions as a bare operand or after `$`. -/
def mentionedNames (line : Text) : List Label :=
  match operandTokens (operandText line) with
  | .error _ => []
  | .ok tokens =>
    tokens.filterMap fun t =>
      let name := if t.head? = some '$' then t.drop 1 else t
      if isIdent name then some name else none

/-- `tb` with a binding for each name that the line mentions and `tb` does not have: as a text label at instruction index
`pos`, and as a 4-byte data label at address 0 (log entry 4). -/
def bindMentioned (tb : Tables) (pos : Nat) (line : Text) : Tables :=
  let names := (mentionedNames line).filter (fun n => !tb.externs.contains n)
  { tb with
    textLabels := tb.textLabels ++ names.map (fun n => (n, pos))
    dataLabels := tb.dataLabels ++ names.map (fun n => (n, { size := .l, base := 0 })) }

/-- The tables of no program. -/
def Tables.empty : Tables := { textLabels := [], dataLabels := [], externs := [] }

/-- The instruction that the line with these bits decodes to, as the first line of a program with no names but those it
mentions itself; none where the line is refused, unknown or bypassed. -/
def decodeTableWord (nbits w : Nat) : Option Instr :=
  let line := wordText nbits w
  match decodeLine defaultParams (bindMentioned Tables.empty 0 line) line with
  | .ok (.known i) => some i
  | .ok .unknown | .ok .bypassed | .error _ => none

end Sys2Proof
end

