-- ==== Sys2Proof/Machine/Load.lean ====
section
/-! DEFINITION. The load port: reset, the checks of a program, its image and its entry point (60_exceptions.md R204;
70_reset_and_hazards.md R220 to R224), and placing one line where the next step fetches (log entries 2 to 4). -/

namespace Sys2Proof.Machine

/-- What the load port delivers for one program (R222). -/
structure LoadInput where
  lines  : List Text
  tables : Tables
  image  : List Byte
  entry  : Label
deriving DecidableEq, Repr

/-- The load error of a line's decoding failure (R201). -/
def lineLoadError (line : Nat) (text : Text) : LineError → LoadError
  | .malformed check => .malformedInstruction line text check
  | .unresolved name => .unresolvedLabel (some line) name

/-- Decode the lines in order; the first failing line refuses the program (R92, R204). -/
def decodeLines (p : Params) (tb : Tables) (line : Nat) : List Text → Except LoadError (List Record)
  | [] => .ok []
  | t :: ts =>
    match decodeLine p tb t with
    | .error e => .error (lineLoadError line t e)
    | .ok kind =>
      match decodeLines p tb (line + 1) ts with
      | .error e => .error e
      | .ok rs => .ok ({ text := t, kind := kind } :: rs)

/-- A load error leaves no runnable program (R221; log entry 7). -/
def refuseLoad (s : State) (e : LoadError) : State := { s with status := .loadRefused e }

/-- R223 and R221 step 6: the entry point, then the run status. -/
def enterProgram (s : State) (prog : Program) : State :=
  match lookupName prog.entry prog.tables.textLabels with
  | none => refuseLoad s (.unresolvedLabel none prog.entry)
  | some t =>
    { s with program := prog, pc := t, status := if t = prog.code.length then .halted else .running }

/-- R221 steps 4 to 6. -/
def decodeProgram (s : State) (inp : LoadInput) : State :=
  match decodeLines s.params inp.tables 0 inp.lines with
  | .error e => refuseLoad s e
  | .ok code => enterProgram s { code := code, tables := inp.tables, entry := inp.entry }

/-- A load (R220, R221): the reset, the size checks (`N` is at most `2^31 - 1`, R29, R222), the image, the decoding, the
entry point. -/
def load (s : State) (inp : LoadInput) : State :=
  let s := leaveByReset s
  if 2147483647 < inp.lines.length then refuseLoad s (.programTooLarge inp.lines.length)
  else if s.params.capacity < inp.image.length then refuseLoad s (.imageTooLarge inp.image.length)
  else decodeProgram { s with mem := imageCells 0 inp.image } inp

/-- The code with a record at index `pc`: in place of the one there, or after the last one. -/
def placeRecord (code : List Record) (pc : Nat) (r : Record) : List Record :=
  code.take pc ++ List.replicate (pc - code.length) r ++ r :: code.drop (pc + 1)

/-- The line stands at `pc`, decoded under the state's names and those the line mentions itself, and the run goes on there. -/
def placeLine (s : State) (line : Text) : State :=
  let tb := bindMentioned s.program.tables s.pc line
  match decodeLine s.params tb line with
  | .error e => refuseLoad s (lineLoadError s.pc line e)
  | .ok kind =>
    { s with
      program := { s.program with
        code := placeRecord s.program.code s.pc { text := line, kind := kind }
        tables := tb }
      status := .running }

end Sys2Proof.Machine
end

