-- ==== Sys2Proof/Machine/Step.lean ====
section
/-! DEFINITION. The step of the machine (40_engine.md R101), and the pipeline's port that places one line. -/

namespace Sys2Proof.Machine

def step (s : State) : Host.Outcome State Fault Refusal := stepRequest s

/-- `s` with the line of these bits as the instruction the next step runs (log entries 2 to 4). -/
def State.withFetchWord (s : State) (nbits w : Nat) : State := placeLine s (wordText nbits w)

end Sys2Proof.Machine
end

