-- ==== Sys2Proof/Safety.lean ====
section
/-! DEFINITION. What counts as a safe run, and the terms the claims use: values and stores written out byte by byte from the
spec's tables, beside the operations of Machine/, so that a claim does not repeat the definition it is about. -/

namespace Sys2Proof.Machine

/-! ### Runs -/

/-- One step that answers a next state. -/
def StepsTo (s t : State) : Prop := step s = .next t

/-- Zero or more steps. -/
inductive Reaches : State → State → Prop where
  | refl (s : State) : Reaches s s
  | tail {s t u : State} (h : Reaches s t) (hs : StepsTo t u) : Reaches s u

/-- The run has not ended with a fault (R202). -/
def notFaulted (s : State) : Prop := ∀ r, s.status ≠ .faulted r

/-- A run is safe when no state it reaches is faulted. -/
def SafeFrom (s : State) : Prop := ∀ t, Reaches s t → notFaulted t

/-! ### Values and stores, written out -/

/-- The value of a view by R23's table, zero-extended (R24): the whole cell, its low half, its bits 15:8 or its bits 7:0. -/
def viewValue (c : Cells) : View → Word
  | .eax => c.a
  | .ebx => c.b
  | .ecx => c.c
  | .edx => c.d
  | .esi => c.si
  | .edi => c.di
  | .esp => c.sp
  | .ebp => c.bp
  | .ax => (c.a.extractLsb' 0 16).setWidth 32
  | .bx => (c.b.extractLsb' 0 16).setWidth 32
  | .cx => (c.c.extractLsb' 0 16).setWidth 32
  | .dx => (c.d.extractLsb' 0 16).setWidth 32
  | .ah => (c.a.extractLsb' 8 8).setWidth 32
  | .bh => (c.b.extractLsb' 8 8).setWidth 32
  | .ch => (c.c.extractLsb' 8 8).setWidth 32
  | .dh => (c.d.extractLsb' 8 8).setWidth 32
  | .al => (c.a.extractLsb' 0 8).setWidth 32
  | .bl => (c.b.extractLsb' 0 8).setWidth 32
  | .cl => (c.c.extractLsb' 0 8).setWidth 32
  | .dl => (c.d.extractLsb' 0 8).setWidth 32

/-- A cell with its low half replaced. -/
def withLow16 (cell v : Word) : Word := cell.extractLsb' 16 16 ++ v.extractLsb' 0 16

/-- A cell with its bits 15:8 replaced. -/
def withHigh8 (cell v : Word) : Word := cell.extractLsb' 16 16 ++ v.extractLsb' 0 8 ++ cell.extractLsb' 0 8

/-- A cell with its bits 7:0 replaced. -/
def withLow8 (cell v : Word) : Word := cell.extractLsb' 8 24 ++ v.extractLsb' 0 8

/-- The cells after a write to a view, by R23's table (R25): only the view's own bits change. -/
def viewStored (c : Cells) (view : View) (v : Word) : Cells :=
  match view with
  | .eax => { c with a := v }
  | .ebx => { c with b := v }
  | .ecx => { c with c := v }
  | .edx => { c with d := v }
  | .esi => { c with si := v }
  | .edi => { c with di := v }
  | .esp => { c with sp := v }
  | .ebp => { c with bp := v }
  | .ax => { c with a := withLow16 c.a v }
  | .bx => { c with b := withLow16 c.b v }
  | .cx => { c with c := withLow16 c.c v }
  | .dx => { c with d := withLow16 c.d v }
  | .ah => { c with a := withHigh8 c.a v }
  | .bh => { c with b := withHigh8 c.b v }
  | .ch => { c with c := withHigh8 c.c v }
  | .dh => { c with d := withHigh8 c.d v }
  | .al => { c with a := withLow8 c.a v }
  | .bl => { c with b := withLow8 c.b v }
  | .cl => { c with c := withLow8 c.c v }
  | .dl => { c with d := withLow8 c.d v }

/-- The 4 bytes at an address, the lowest address least significant (R51). -/
def dwordAt (m : Memory) (a : Nat) : Word :=
  readByte m (a + 3) ++ readByte m (a + 2) ++ readByte m (a + 1) ++ readByte m a

/-- What a memory operand's read gives: the bytes at its address as a signed number (R51, R108). -/
def memValue (m : Memory) (size : Size) (a : Nat) : Word :=
  match size with
  | .b => BitVec.ofInt 32 (readByte m a).toInt
  | .w => BitVec.ofInt 32 (readByte m (a + 1) ++ readByte m a).toInt
  | .l => dwordAt m a

/-- Memory after the low 4 bytes of a value are stored, byte by byte (R52). -/
def dwordStored (m : Memory) (a : Nat) (v : Word) : Memory :=
  writeByte (writeByte (writeByte (writeByte m a (v.extractLsb' 0 8)) (a + 1) (v.extractLsb' 8 8)) (a + 2)
    (v.extractLsb' 16 8)) (a + 3) (v.extractLsb' 24 8)

/-- Memory after the low bytes of a value are stored at a declared size (R52). -/
def memStored (m : Memory) (size : Size) (a : Nat) (v : Word) : Memory :=
  match size with
  | .b => writeByte m a (v.extractLsb' 0 8)
  | .w => writeByte (writeByte m a (v.extractLsb' 0 8)) (a + 1) (v.extractLsb' 8 8)
  | .l => dwordStored m a v

/-- The address of a memory operand (R106), as the natural number memory is addressed by. -/
def addressOf (s : State) (m : MemRef) : Nat := (effectiveAddress s.cells m).toNat

/-- The access a memory operand makes lies in `[0, CAPACITY)` (R53). -/
def Accessible (s : State) (size : Size) (m : MemRef) : Prop := addressOf s m + bytesOf size ≤ s.params.capacity

/-- Reading the operand does not fault: only a memory operand can (R26, R53). -/
def Readable (s : State) (size : Size) : Operand → Prop
  | .reg _ | .imm _ => True
  | .mem m => Accessible s size m

/-- Writing the operand does not fault. -/
def Writable (s : State) (size : Size) : Dest → Prop
  | .reg _ => True
  | .mem m => Accessible s size m

/-- `ReadOp` (R108) of an operand that is readable. -/
def operandValue (s : State) (size : Size) : Operand → Word
  | .reg v => viewValue s.cells v
  | .imm k => k
  | .mem m => memValue s.mem size (addressOf s m)

/-- `WriteOp` (R109) to an operand that is writable. -/
def destStored (s : State) (size : Size) (d : Dest) (v : Word) : State :=
  match d with
  | .reg view => { s with cells := viewStored s.cells view v }
  | .mem m => { s with mem := memStored s.mem size (addressOf s m) v }

/-- The flags a data mnemonic that is no producer leaves: cleared if it is in `FLAG_CLEAR_SET`, else as before (R104). -/
def flagsAfter (op : Op) (s : State) : Flags :=
  if op ∈ s.params.flagClearSet then
    { l := false, le := false, e := false, ge := false, g := false, a := false, ae := false, z := false }
  else s.flags

/-- The state after a data instruction that writes `v` to `d`, touches no flag but by the clear, and goes on (R114). -/
def dataDone (op : Op) (s : State) (size : Size) (d : Dest) (v : Word) : State :=
  { destStored s size d v with flags := flagsAfter op s, pc := s.pc + 1 }

/-- Only Equal and Zero, both saying whether a result is 0 (R126, R127, R160). -/
def zeroOnly (r : Word) : Flags :=
  { l := false, le := false, e := decide (r = 0), ge := false, g := false, a := false, ae := false, z := decide (r = 0) }

/-- The fault of a memory operand's access (R53). -/
def accessFault (s : State) (size : Size) (m : MemRef) : Fault := .outOfBounds (effectiveAddress s.cells m) (bytesOf size)

/-- The stack slot at `a` lies in memory (R53, R56). -/
def SlotAccessible (s : State) (a : Word) : Prop := a.toNat + 4 ≤ s.params.capacity

/-- What the `n` bytes from `a` do not hold reads as before. -/
def SameOutside (m m' : Memory) (a n : Nat) : Prop := ∀ x, x < a ∨ a + n ≤ x → readByte m' x = readByte m x

/-- Every byte reads as before. -/
def SameBytes (m m' : Memory) : Prop := ∀ x, readByte m' x = readByte m x

/-- The parameters, the program store, the status, the diagnostics and the trace are as before: no instruction writes them. -/
def SameElse (s t : State) : Prop :=
  t.params = s.params ∧ t.program = s.program ∧ t.status = s.status ∧ t.diags = s.diags ∧ t.trace = s.trace

/-- The state differs only in what a write to `d` may change: for a view, its bits of its cell; for a memory operand, the
declared size's bytes at its address. `pc` and the flags are not spoken of. -/
def OnlyDest (s t : State) (size : Size) (d : Dest) : Prop :=
  SameElse s t ∧
  match d with
  | .reg v =>
    (∀ slot, slot ≠ slotOf v → getCell t.cells slot = getCell s.cells slot) ∧
    (∀ i, i < 32 → ¬ (offsetOf v ≤ i ∧ i < offsetOf v + widthOf v) →
      (getCell t.cells (slotOf v)).getLsbD i = (getCell s.cells (slotOf v)).getLsbD i) ∧
    SameBytes s.mem t.mem
  | .mem m => t.cells = s.cells ∧ SameOutside s.mem t.mem (addressOf s m) (bytesOf size)

/-- Nothing differs but `pc`. -/
def OnlyPc (s t : State) : Prop := SameElse s t ∧ t.cells = s.cells ∧ t.flags = s.flags ∧ SameBytes s.mem t.mem

/-- The cells after the accumulator pair is written: al and ah, ax and dx, or eax and edx (R141, R142). -/
def pairStored (c : Cells) (size : Size) (lo hi : Word) : Cells :=
  match size with
  | .b => viewStored (viewStored c .al lo) .ah hi
  | .w => viewStored (viewStored c .ax lo) .dx hi
  | .l => { c with a := lo, d := hi }

/-- The low accumulator (R141, R142). -/
def lowAcc (c : Cells) : Size → Word
  | .b => viewValue c .al
  | .w => viewValue c .ax
  | .l => c.a

/-- The high accumulator (R141, R142). -/
def highAcc (c : Cells) : Size → Word
  | .b => viewValue c .ah
  | .w => viewValue c .dx
  | .l => c.d

/-- `2^w` for a declared size (R13). -/
def modulus : Size → Nat
  | .b => 256
  | .w => 65536
  | .l => 4294967296

/-- The product that `mul` forms (R141). -/
def exactProduct (s : State) (size : Size) (x : Word) : Nat :=
  if size = .l ∧ s.params.mul32High = .signed then (BitVec.ofInt 64 (s.cells.a.toInt * x.toInt)).toNat
  else (lowAcc s.cells size).toNat * (x.toNat % modulus size)

/-- The dividend of `div` (R142). -/
def pairValue (c : Cells) (size : Size) : Nat := (highAcc c size).toNat * modulus size + (lowAcc c size).toNat

/-- The 14 data mnemonics that are no flag producers (R8, R104). -/
def plainDataOps : List Op :=
  [.mov, .add, .sub, .or, .xor, .and, .shl, .shr, .sar, .lea, .mul, .div, .push, .pop]

def destSlots : Dest → List Slot
  | .reg v => [slotOf v]
  | .mem _ => []

/-- The slots whose cells an instruction may write: the destination's, and the implicit ones of R27. -/
def writtenSlots (i : Instr) : List Slot :=
  match i with
  | .mov _ _ d | .add _ _ d | .sub _ _ d | .or _ _ d | .xor _ _ d | .and _ _ d => destSlots d
  | .shl _ _ d | .shr _ _ d | .sar _ _ d | .lea _ _ d | .inc _ d | .dec _ d => destSlots d
  | .mul size _ | .div size _ => if size = .b then [.a] else [.a, .d]
  | .push _ _ => [.sp]
  | .pop _ d => .sp :: destSlots d
  | .loop _ => [.c]
  | .call (.internal _) => [.sp]
  | .ret => [.sp]
  | _ => []

/-- The instructions through which `SP` changes (R227). -/
def movesStack : Instr → Prop
  | .push _ _ | .pop _ _ | .ret | .call (.internal _) => True
  | _ => False

/-! ### Invariants -/

/-- Every internal target is an index in `0 .. n` (R94). -/
def targetInRange (n : Nat) (i : Instr) : Prop := ∀ t, targetOf i = some (.internal t) → t ≤ n

/-- The records are what the decoder makes of their lines (R92). -/
def Coherent (p : Params) (prog : Program) : Prop :=
  ∀ r ∈ prog.code, decodeLine p prog.tables r.text = .ok r.kind

/-- What holds after every load that keeps the load port's contract, and every step keeps. -/
structure Inv (s : State) : Prop where
  /-- Memory is in its canonical form. -/
  mem_wf : Memory.wf s.mem = true
  /-- Nothing lies outside `[0, CAPACITY)` (R31). -/
  mem_below : memBelow s.params.capacity s.mem = true
  /-- R30. -/
  equal_is_zero : s.flags.e = s.flags.z
  /-- R29. -/
  length_le : s.program.code.length ≤ 2147483647
  /-- R29: `pc` lies in `0 .. N`. -/
  pc_le : s.pc ≤ s.program.code.length
  /-- R34, R101: a running machine has an instruction to execute. -/
  running_inside : s.status = .running → s.pc < s.program.code.length
  /-- R34, R225. -/
  halted_at_end : s.status = .halted → s.pc = s.program.code.length
  /-- R94. -/
  targets : ∀ r ∈ s.program.code, ∀ i, r.kind = .known i → targetInRange s.program.code.length i
  /-- R92. -/
  coherent : Coherent s.params s.program

/-- The load port keeps its contract (R222). -/
def LoadInput.wf (inp : LoadInput) : Prop := inp.tables.wf inp.lines.length = true

end Sys2Proof.Machine
end

