-- ==== Sys2Proof/Certificates/Slice0/Obligations.lean ====
section
/-! DEFINITION. The statements for the provers. Each docstring names the rules of spec/ that the statement formalises or
rests on; OBLIGATIONS.json lists them. The terms that are no operation of the machine stand in Sys2Proof/Safety.lean. -/

open Sys2Proof Sys2Proof.Machine

/-! ### Register views -/

/-- R23: exactly 20 views, no two alike, each with the slot, width, bit offset and name of the table, spelled `%` and the
name. -/
def Obligations.ViewsAreThoseOfTheTable : Prop :=
  allViews.length = 20 ∧ allViews.Nodup ∧ (∀ v : View, v ∈ allViews) ∧
  allViews.map (fun v => (v, slotOf v, widthOf v, offsetOf v)) =
    [(.eax, .a, 32, 0), (.ax, .a, 16, 0), (.ah, .a, 8, 8), (.al, .a, 8, 0),
     (.ebx, .b, 32, 0), (.bx, .b, 16, 0), (.bh, .b, 8, 8), (.bl, .b, 8, 0),
     (.ecx, .c, 32, 0), (.cx, .c, 16, 0), (.ch, .c, 8, 8), (.cl, .c, 8, 0),
     (.edx, .d, 32, 0), (.dx, .d, 16, 0), (.dh, .d, 8, 8), (.dl, .d, 8, 0),
     (.esi, .si, 32, 0), (.edi, .di, 32, 0), (.esp, .sp, 32, 0), (.ebp, .bp, 32, 0)] ∧
  allViews.map viewName =
    ["eax".toList, "ax".toList, "ah".toList, "al".toList, "ebx".toList, "bx".toList, "bh".toList, "bl".toList,
     "ecx".toList, "cx".toList, "ch".toList, "cl".toList, "edx".toList, "dx".toList, "dh".toList, "dl".toList,
     "esi".toList, "edi".toList, "esp".toList, "ebp".toList] ∧
  ∀ v : View, parseRegister ('%' :: viewName v) = .ok v

/-- R24: reading a view gives the field of its cell, zero-extended: bit `i` of the value is bit `offset + i` of the cell
below the view's width, and 0 from there on. -/
def Obligations.ViewReadZeroExtendsItsField : Prop :=
  ∀ (c : Cells) (v : View) (i : Nat),
    (readView c v).getLsbD i = (decide (i < widthOf v) && (getCell c (slotOf v)).getLsbD (offsetOf v + i))

/-- R25: writing a view stores the value's low bits in the view's own bits of its cell. The other bits of the cell and the
other cells keep their values. -/
def Obligations.ViewWriteMergesIntoItsCell : Prop :=
  ∀ (c : Cells) (v : View) (val : Word),
    (∀ i, i < 32 → (getCell (writeView c v val) (slotOf v)).getLsbD i =
      if offsetOf v ≤ i ∧ i < offsetOf v + widthOf v then val.getLsbD (i - offsetOf v)
      else (getCell c (slotOf v)).getLsbD i) ∧
    (∀ s, s ≠ slotOf v → getCell (writeView c v val) s = getCell c s)

/-! ### Memory -/

/-- R51: after the bounds check, a read of 1, 2 or 4 bytes is the little-endian sum of the bytes. -/
def Obligations.MemReadIsTheLittleEndianSum : Prop :=
  ∀ (s : State) (addr : Word) (n : Nat), n = 1 ∨ n = 2 ∨ n = 4 →
    (addr.toNat + n ≤ s.params.capacity →
      ∃ v : Word, memRead s addr n = .ok v ∧
        v.toNat = ∑ i ∈ Finset.range n, (readByte s.mem (addr.toNat + i)).toNat * 2 ^ (8 * i)) ∧
    (s.params.capacity < addr.toNat + n → memRead s addr n = .error (.outOfBounds addr n))

/-- R52: after the bounds check, a write of 1, 2 or 4 bytes stores the value's low bytes, the least significant first, and
changes nothing else. -/
def Obligations.MemWriteStoresTheLowBytes : Prop :=
  ∀ (s : State) (addr : Word) (n : Nat) (v : Word), Memory.wf s.mem = true → n = 1 ∨ n = 2 ∨ n = 4 →
    (addr.toNat + n ≤ s.params.capacity →
      ∃ m : Memory, memWrite s addr n v = .ok { s with mem := m } ∧ Memory.wf m = true ∧
        (∀ i, i < n → readByte m (addr.toNat + i) = v.extractLsb' (8 * i) 8) ∧
        SameOutside s.mem m addr.toNat n) ∧
    (s.params.capacity < addr.toNat + n → memWrite s addr n v = .error (.outOfBounds addr n))

/-- R53: an access is in bounds exactly when `int(addr) + n <= CAPACITY`, in unbounded integers; otherwise reading and writing
raise `OutOfBounds(addr, n)`. -/
def Obligations.AccessOutsideMemoryRaisesOutOfBounds : Prop :=
  ∀ (s : State) (addr : Word) (n : Nat) (v : Word),
    (addr.toNat + n ≤ s.params.capacity → (∃ w, memRead s addr n = .ok w) ∧ ∃ t, memWrite s addr n v = .ok t) ∧
    (¬ addr.toNat + n ≤ s.params.capacity →
      memRead s addr n = .error (.outOfBounds addr n) ∧ memWrite s addr n v = .error (.outOfBounds addr n))

/-- R54, W2: after a write, a read of the same width at the same address gives the value truncated to that width, and a
1-byte read there gives its least significant byte. -/
def Obligations.ReadAfterWriteIsTruncation : Prop :=
  ∀ (s t : State) (addr : Word) (n : Nat) (v : Word), Memory.wf s.mem = true → n = 1 ∨ n = 2 ∨ n = 4 →
    memWrite s addr n v = .ok t →
    (∃ w : Word, memRead t addr n = .ok w ∧ w.toNat = v.toNat % 2 ^ (8 * n)) ∧
    (∃ b : Word, memRead t addr 1 = .ok b ∧ b.toNat = v.toNat % 256)

/-! ### Operands -/

/-- R106: an effective address is base + index * scale + displacement modulo 2^32, an absent register counting 0. -/
def Obligations.EffectiveAddressWrapsModulo32Bits : Prop :=
  ∀ (c : Cells) (b i : View) (sc : Scale) (d : Word),
    (effectiveAddress c { base := none, index := none, scale := .x1, disp := d }).toNat = d.toNat ∧
    (effectiveAddress c { base := some b, index := none, scale := .x1, disp := d }).toNat =
      ((viewValue c b).toNat + d.toNat) % 2 ^ 32 ∧
    (effectiveAddress c { base := some b, index := some i, scale := sc, disp := d }).toNat =
      ((viewValue c b).toNat + (viewValue c i).toNat * factorOf sc + d.toNat) % 2 ^ 32

/-- R108: a register operand reads as its zero-extended field whatever the size, an immediate as itself, and a memory operand
as the signed number its `size` bytes write; the read faults only out of bounds. -/
def Obligations.OperandReadExtendsByKind : Prop :=
  ∀ (s : State) (size : Size),
    (∀ v, readOp s size (.reg v) = .ok (viewValue s.cells v)) ∧
    (∀ k, readOp s size (.imm k) = .ok k) ∧
    (∀ m, Accessible s size m → ∃ w, readOp s size (.mem m) = .ok w ∧
      w.toInt =
        match size with
        | .b => (readByte s.mem (addressOf s m)).toInt
        | .w => (readByte s.mem (addressOf s m + 1) ++ readByte s.mem (addressOf s m)).toInt
        | .l => (dwordAt s.mem (addressOf s m)).toInt) ∧
    (∀ m, ¬ Accessible s size m → readOp s size (.mem m) = .error (accessFault s size m))

/-- R109, R110: a register operand is written at its view's width, whatever the size; a memory operand at the declared size;
the write faults only out of bounds. -/
def Obligations.OperandWriteTruncatesByKind : Prop :=
  ∀ (s : State) (size : Size) (val : Word),
    (∀ v, writeOp s size (.reg v) val = .ok { s with cells := viewStored s.cells v val }) ∧
    (∀ m, Accessible s size m →
      writeOp s size (.mem m) val = .ok { s with mem := memStored s.mem size (addressOf s m) val }) ∧
    (∀ m, ¬ Accessible s size m → writeOp s size (.mem m) val = .error (accessFault s size m))

/-! ### Results, flags, faults and completion, family by family -/

/-- R120. -/
def Obligations.MovCopiesSourceToDestination : Prop :=
  ∀ (s : State) (size : Size) (src : Operand) (dst : Dest),
    (Readable s size src → Writable s size dst →
      exec (.mov size src dst) s = .next (dataDone .mov s size dst (operandValue s size src))) ∧
    (∀ m, src = .mem m → ¬ Accessible s size m → exec (.mov size src dst) s = .fault (accessFault s size m)) ∧
    (∀ m, dst = .mem m → Readable s size src → ¬ Accessible s size m →
      exec (.mov size src dst) s = .fault (accessFault s size m))

/-- R121 to R125. The destination is read before it is written, at the same address, so its read is the only access of it
that can fault first. -/
def Obligations.AluWritesDestinationOpSource : Prop :=
  ∀ (s : State) (size : Size) (src : Operand) (dst : Dest),
    (Readable s size src → Writable s size dst →
      let x := operandValue s size src
      let d := operandValue s size (destOperand dst)
      exec (.add size src dst) s = .next (dataDone .add s size dst (d + x)) ∧
      exec (.sub size src dst) s = .next (dataDone .sub s size dst (d - x)) ∧
      exec (.or size src dst) s = .next (dataDone .or s size dst (d ||| x)) ∧
      exec (.xor size src dst) s = .next (dataDone .xor s size dst (d ^^^ x)) ∧
      exec (.and size src dst) s = .next (dataDone .and s size dst (d &&& x))) ∧
    (∀ i ∈ [Instr.add size src dst, .sub size src dst, .or size src dst, .xor size src dst, .and size src dst],
      (∀ m, src = .mem m → ¬ Accessible s size m → exec i s = .fault (accessFault s size m)) ∧
      (∀ m, dst = .mem m → Readable s size src → ¬ Accessible s size m → exec i s = .fault (accessFault s size m)))

/-- R126, R127: the result, Equal and Zero from the 32-bit result before truncation, the other flags cleared. -/
def Obligations.IncDecWriteResultAndZeroFlags : Prop :=
  ∀ (s : State) (size : Size) (dst : Dest),
    (Writable s size dst →
      let d := operandValue s size (destOperand dst)
      exec (.inc size dst) s =
        .next { destStored s size dst (d + 1) with flags := zeroOnly (d + 1), pc := s.pc + 1 } ∧
      exec (.dec size dst) s =
        .next { destStored s size dst (d - 1) with flags := zeroOnly (d - 1), pc := s.pc + 1 }) ∧
    (∀ m, dst = .mem m → ¬ Accessible s size m →
      exec (.inc size dst) s = .fault (accessFault s size m) ∧ exec (.dec size dst) s = .fault (accessFault s size m))

/-- R130 to R133: counts 0 to 31 shift the 32-bit pattern; a larger unsigned count faults after both reads and before the
write. -/
def Obligations.ShiftsMoveThePatternOrFaultOnTheCount : Prop :=
  ∀ (s : State) (size : Size) (src : Operand) (dst : Dest),
    (Readable s size src → Writable s size dst → (operandValue s size src).toNat ≤ 31 →
      let c := (operandValue s size src).toNat
      let d := operandValue s size (destOperand dst)
      exec (.shl size src dst) s = .next (dataDone .shl s size dst (BitVec.ofNat 32 (d.toNat * 2 ^ c))) ∧
      exec (.shr size src dst) s = .next (dataDone .shr s size dst (BitVec.ofNat 32 (d.toNat / 2 ^ c))) ∧
      exec (.sar size src dst) s = .next (dataDone .sar s size dst (BitVec.ofInt 32 (d.toInt / 2 ^ c)))) ∧
    (∀ i ∈ [Instr.shl size src dst, .shr size src dst, .sar size src dst],
      (∀ m, src = .mem m → ¬ Accessible s size m → exec i s = .fault (accessFault s size m)) ∧
      (∀ m, dst = .mem m → Readable s size src → ¬ Accessible s size m → exec i s = .fault (accessFault s size m)) ∧
      (Readable s size src → Writable s size dst → 31 < (operandValue s size src).toNat →
        exec i s = .fault (.shiftCountOutOfRange (operandValue s size src))))

/-- R140: the address itself, with no access to the source: the only fault is the destination's. -/
def Obligations.LeaWritesTheAddressWithoutAccess : Prop :=
  ∀ (s : State) (size : Size) (src : MemRef) (dst : Dest),
    (Writable s size dst →
      exec (.lea size src dst) s = .next (dataDone .lea s size dst (effectiveAddress s.cells src))) ∧
    (∀ m, dst = .mem m → ¬ Accessible s size m → exec (.lea size src dst) s = .fault (accessFault s size m))

/-- R141: the low half of the exact product to the low view, the high half to the high view; no fault but the read's. -/
def Obligations.MulWritesTheAccumulatorPair : Prop :=
  ∀ (s : State) (size : Size) (src : Operand),
    (Readable s size src →
      let p := exactProduct s size (operandValue s size src)
      exec (.mul size src) s =
        .next { s with
          cells := pairStored s.cells size (BitVec.ofNat 32 (p % modulus size)) (BitVec.ofNat 32 (p / modulus size))
          flags := flagsAfter .mul s
          pc := s.pc + 1 }) ∧
    (∀ m, src = .mem m → ¬ Accessible s size m → exec (.mul size src) s = .fault (accessFault s size m))

/-- R141: after `mul` the pair hi:lo reads as the exact product: unsigned on the low `w` bits, or for size 4 under
`MUL32_HIGH = signed` the signed product modulo 2^64. -/
def Obligations.MulPairReadsAsTheExactProduct : Prop :=
  ∀ (s t : State) (size : Size) (src : Operand), exec (.mul size src) s = .next t →
    (size ≠ .l ∨ s.params.mul32High = .unsigned →
      pairValue t.cells size = (lowAcc s.cells size).toNat * ((operandValue s size src).toNat % modulus size)) ∧
    (size = .l → s.params.mul32High = .signed →
      (pairValue t.cells size : Int) = (s.cells.a.toInt * (operandValue s size src).toInt) % (2 ^ 64 : Int))

/-- R142: quotient to the low view and remainder to the high view; the divisor is the operand's low `w` bits; the faults in
their order. -/
def Obligations.DivWritesQuotientAndRemainderOrFaults : Prop :=
  ∀ (s : State) (size : Size) (src : Operand),
    let v := (operandValue s size src).toNat % modulus size
    let n := pairValue s.cells size
    (Readable s size src → v ≠ 0 → n / v < modulus size →
      exec (.div size src) s =
        .next { s with
          cells := pairStored s.cells size (BitVec.ofNat 32 (n / v)) (BitVec.ofNat 32 (n % v))
          flags := flagsAfter .div s
          pc := s.pc + 1 }) ∧
    (∀ m, src = .mem m → ¬ Accessible s size m → exec (.div size src) s = .fault (accessFault s size m)) ∧
    (Readable s size src → v = 0 → exec (.div size src) s = .fault (.divideByZero s.pc)) ∧
    (Readable s size src → v ≠ 0 → modulus size ≤ n / v → exec (.div size src) s = .fault (.divideOverflow (n / v)))

/-- R142: after `div` the low view times the divisor plus the high view is the dividend, and the high view is below the
divisor. -/
def Obligations.DivPairSatisfiesTheDivisionIdentity : Prop :=
  ∀ (s t : State) (size : Size) (src : Operand), exec (.div size src) s = .next t →
    (lowAcc t.cells size).toNat * ((operandValue s size src).toNat % modulus size) + (highAcc t.cells size).toNat =
      pairValue s.cells size ∧
    (highAcc t.cells size).toNat < (operandValue s size src).toNat % modulus size

/-- R150: 4 bytes below `SP`, whatever the declared size; `SP` drops by 4 modulo 2^32. -/
def Obligations.PushStoresAFourByteSlot : Prop :=
  ∀ (s : State) (size : Size) (src : Operand),
    let a := s.cells.sp - 4
    (Readable s size src → SlotAccessible s a →
      exec (.push size src) s =
        .next { s with
          mem := dwordStored s.mem a.toNat (operandValue s size src)
          cells := { s.cells with sp := a }
          flags := flagsAfter .push s
          pc := s.pc + 1 }) ∧
    (∀ m, src = .mem m → ¬ Accessible s size m → exec (.push size src) s = .fault (accessFault s size m)) ∧
    (Readable s size src → ¬ SlotAccessible s a → exec (.push size src) s = .fault (.outOfBounds a 4))

/-- R151: the 4 bytes at `SP` to the operand, at the operand's width; then `SP` rises by 4. -/
def Obligations.PopLoadsAFourByteSlot : Prop :=
  ∀ (s : State) (size : Size) (dst : Dest),
    (SlotAccessible s s.cells.sp → Writable s size dst →
      let u := destStored s size dst (dwordAt s.mem s.cells.sp.toNat)
      exec (.pop size dst) s =
        .next { u with cells := { u.cells with sp := s.cells.sp + 4 }, flags := flagsAfter .pop s, pc := s.pc + 1 }) ∧
    (¬ SlotAccessible s s.cells.sp → exec (.pop size dst) s = .fault (.outOfBounds s.cells.sp 4)) ∧
    (∀ m, dst = .mem m → SlotAccessible s s.cells.sp → ¬ Accessible s size m →
      exec (.pop size dst) s = .fault (accessFault s size m))

/-- R160: Equal and Zero say whether the AND of the operands is 0; the other flags are cleared; no operand is written. -/
def Obligations.TestSetsEqualAndZeroFromTheAnd : Prop :=
  ∀ (s : State) (size : Size) (src dst : Operand),
    (Readable s size src → Readable s size dst →
      exec (.test size src dst) s =
        .next { s with
          flags := zeroOnly (operandValue s size dst &&& operandValue s size src)
          pc := s.pc + 1 }) ∧
    (∀ m, src = .mem m → ¬ Accessible s size m → exec (.test size src dst) s = .fault (accessFault s size m)) ∧
    (∀ m, dst = .mem m → Readable s size src → ¬ Accessible s size m →
      exec (.test size src dst) s = .fault (accessFault s size m))

/-- R161: all eight flags, from the signed and the unsigned order of the two 32-bit values. -/
def Obligations.CmpSetsTheEightRelations : Prop :=
  ∀ (s : State) (size : Size) (src dst : Operand),
    (Readable s size src → Readable s size dst →
      let x := operandValue s size src
      let d := operandValue s size dst
      exec (.cmp size src dst) s =
        .next { s with
          flags := {
            l := decide (d.toInt < x.toInt)
            le := decide (d.toInt ≤ x.toInt)
            e := decide (d = x)
            ge := decide (d.toInt ≥ x.toInt)
            g := decide (d.toInt > x.toInt)
            a := decide (d.toNat > x.toNat)
            ae := decide (d.toNat ≥ x.toNat)
            z := decide (d = x) }
          pc := s.pc + 1 }) ∧
    (∀ m, src = .mem m → ¬ Accessible s size m → exec (.cmp size src dst) s = .fault (accessFault s size m)) ∧
    (∀ m, dst = .mem m → Readable s size src → ¬ Accessible s size m →
      exec (.cmp size src dst) s = .fault (accessFault s size m))

/-- R170 to R180: `jmp` always jumps; each conditional jump jumps exactly when its flag, or its flag's negation for `jne` and
`jnz`, holds, and falls through otherwise. -/
def Obligations.JumpsFollowTheirFlag : Prop :=
  ∀ (s : State) (t : Nat),
    exec (.jmp t) s = .next { s with pc := t } ∧
    exec (.jl t) s = .next { s with pc := if s.flags.l = true then t else s.pc + 1 } ∧
    exec (.jle t) s = .next { s with pc := if s.flags.le = true then t else s.pc + 1 } ∧
    exec (.je t) s = .next { s with pc := if s.flags.e = true then t else s.pc + 1 } ∧
    exec (.jge t) s = .next { s with pc := if s.flags.ge = true then t else s.pc + 1 } ∧
    exec (.jg t) s = .next { s with pc := if s.flags.g = true then t else s.pc + 1 } ∧
    exec (.ja t) s = .next { s with pc := if s.flags.a = true then t else s.pc + 1 } ∧
    exec (.jae t) s = .next { s with pc := if s.flags.ae = true then t else s.pc + 1 } ∧
    exec (.jne t) s = .next { s with pc := if s.flags.e = false then t else s.pc + 1 } ∧
    exec (.jz t) s = .next { s with pc := if s.flags.z = true then t else s.pc + 1 } ∧
    exec (.jnz t) s = .next { s with pc := if s.flags.z = false then t else s.pc + 1 }

/-- R181: the full 32-bit `ecx`, modulo 2^32. -/
def Obligations.LoopDecrementsEcxAndJumpsUnlessZero : Prop :=
  ∀ (s : State) (t : Nat),
    exec (.loop t) s =
      .next { s with
        cells := { s.cells with c := s.cells.c - 1 }
        pc := if s.cells.c = 1 then s.pc + 1 else t }

/-- R182: an internal call stores the return index in a new slot and jumps; an external call only advances. -/
def Obligations.CallPushesTheReturnIndex : Prop :=
  ∀ (s : State) (t : Nat) (name : Label),
    let a := s.cells.sp - 4
    (SlotAccessible s a →
      exec (.call (.internal t)) s =
        .next { s with
          mem := dwordStored s.mem a.toNat (BitVec.ofNat 32 (s.pc + 1))
          cells := { s.cells with sp := a }
          pc := t }) ∧
    (¬ SlotAccessible s a → exec (.call (.internal t)) s = .fault (.outOfBounds a 4)) ∧
    exec (.call (.external name)) s = .next { s with pc := s.pc + 1 }

/-- R183: the popped index, or the end of the program when it is no index of it. -/
def Obligations.RetPopsTheReturnIndex : Prop :=
  ∀ (s : State),
    (SlotAccessible s s.cells.sp →
      exec .ret s =
        .next { s with
          cells := { s.cells with sp := s.cells.sp + 4 }
          pc := if (dwordAt s.mem s.cells.sp.toNat).toNat < s.program.code.length
                then (dwordAt s.mem s.cells.sp.toNat).toNat else s.program.code.length }) ∧
    (¬ SlotAccessible s s.cells.sp → exec .ret s = .fault (.outOfBounds s.cells.sp 4))

/-- R184. -/
def Obligations.IntOnlyAdvances : Prop :=
  ∀ (s : State) (imm : Word), exec (.int imm) s = .next { s with pc := s.pc + 1 }

/-! ### Pairs of instructions (W5, W6, R226) -/

/-- W5 (44_stack.md): `push %eax` and then `pop %ebx` leaves `ebx` equal to what `eax` held and `SP` unchanged; in general,
for every readable source and every full-width register but `esp`. -/
def Obligations.PushThenPopMovesTheValue : Prop :=
  ∀ (s : State) (size size' : Size) (src : Operand) (v : View), Memory.wf s.mem = true → Readable s size src →
    SlotAccessible s (s.cells.sp - 4) → widthOf v = 32 → v ≠ .esp →
    ∃ t u, exec (.push size src) s = .next t ∧ exec (.pop size' (.reg v)) t = .next u ∧
      getCell u.cells (slotOf v) = operandValue s size src ∧ u.cells.sp = s.cells.sp ∧ u.pc = s.pc + 2

/-- W6 (46_control_flow.md): an internal `call` and then `ret` returns to the instruction after the call, with `SP` as before
it. The return index lies in the program, or is its end. -/
def Obligations.CallThenRetReturns : Prop :=
  ∀ (s : State) (target : Nat), Memory.wf s.mem = true → SlotAccessible s (s.cells.sp - 4) →
    s.pc < s.program.code.length → s.program.code.length ≤ 2147483647 →
    ∃ t u, exec (.call (.internal target)) s = .next t ∧ t.pc = target ∧ exec .ret t = .next u ∧
      u.pc = s.pc + 1 ∧ u.cells = s.cells

/-- R226, R178, R180: after any data instruction that `FLAG_CLEAR_SET` holds (and that is no flag producer), only `jne`, `jnz`
and `jmp` are taken, whatever a comparison before it found. -/
def Obligations.FlagClearHidesTheComparison : Prop :=
  ∀ (s t : State) (i : Instr) (k : Nat), opOf i ∈ plainDataOps → opOf i ∈ s.params.flagClearSet → exec i s = .next t →
    exec (.jne k) t = .next { t with pc := k } ∧ exec (.jnz k) t = .next { t with pc := k } ∧
    ∀ j ∈ [Instr.jl k, .jle k, .je k, .jge k, .jg k, .ja k, .jae k, .jz k], exec j t = .next { t with pc := t.pc + 1 }

/-! ### Frames -/

/-- The frame of every instruction that writes one destination (R25, R27, R52): nothing but the destination's own bits of
its cell, or its bytes in memory, and the flags and `pc`, which other statements treat. -/
def Obligations.DestinationWritersChangeOnlyTheDestination : Prop :=
  ∀ (s t : State) (size : Size) (src : Operand) (m : MemRef) (dst : Dest), Memory.wf s.mem = true →
    ∀ i ∈ [Instr.mov size src dst, .add size src dst, .sub size src dst, .or size src dst, .xor size src dst,
        .and size src dst, .inc size dst, .dec size dst, .shl size src dst, .shr size src dst, .sar size src dst,
        .lea size m dst],
      exec i s = .next t → OnlyDest s t size dst

/-- The frame of `mul` and `div` (R27, R141, R142): memory, every cell but A and D (for size 1 every cell but A), and the bits
of those two above the pair's views keep their values. -/
def Obligations.MulDivChangeOnlyTheAccumulatorPair : Prop :=
  ∀ (s t : State) (size : Size) (src : Operand), ∀ i ∈ [Instr.mul size src, .div size src], exec i s = .next t →
    SameElse s t ∧ SameBytes s.mem t.mem ∧
    (∀ slot, slot ≠ .a → slot ≠ .d → getCell t.cells slot = getCell s.cells slot) ∧
    (size = .b → t.cells.d = s.cells.d) ∧
    (size ≠ .l → ∀ n, 16 ≤ n → n < 32 →
      t.cells.a.getLsbD n = s.cells.a.getLsbD n ∧ t.cells.d.getLsbD n = s.cells.d.getLsbD n)

/-- The frame of the stack instructions (R27, R56, R104, R150, R151, R182, R183): push and an internal call change `SP` and the
4 bytes of the slot below it; pop changes `SP` and its destination; ret changes `SP` only. The two control instructions keep
the flags. -/
def Obligations.StackInstructionsChangeOnlySpAndTheirSlot : Prop :=
  ∀ (s t : State) (size : Size) (src : Operand) (dst : Dest) (k : Nat), Memory.wf s.mem = true →
    (∀ i ∈ [Instr.push size src, .call (.internal k)], exec i s = .next t →
      SameElse s t ∧ (∀ slot, slot ≠ .sp → getCell t.cells slot = getCell s.cells slot) ∧
      SameOutside s.mem t.mem (s.cells.sp - 4).toNat 4) ∧
    (exec (.call (.internal k)) s = .next t → t.flags = s.flags) ∧
    (exec (.pop size dst) s = .next t →
      SameElse s t ∧
      match dst with
      | .reg v =>
        (∀ slot, slot ≠ slotOf v → slot ≠ .sp → getCell t.cells slot = getCell s.cells slot) ∧
        (slotOf v ≠ .sp → ∀ i, i < 32 → ¬ (offsetOf v ≤ i ∧ i < offsetOf v + widthOf v) →
          (getCell t.cells (slotOf v)).getLsbD i = (getCell s.cells (slotOf v)).getLsbD i) ∧
        SameBytes s.mem t.mem
      | .mem m =>
        (∀ slot, slot ≠ .sp → getCell t.cells slot = getCell s.cells slot) ∧
        SameOutside s.mem t.mem (addressOf s m) (bytesOf size)) ∧
    (exec .ret s = .next t →
      SameElse s t ∧ t.flags = s.flags ∧ SameBytes s.mem t.mem ∧
      ∀ slot, slot ≠ .sp → getCell t.cells slot = getCell s.cells slot)

/-- The frame of the comparisons and of the control instructions that store nothing (R27, R104, R160, R161, R170 to R184):
test and cmp change flags and `pc` only, loop changes `ecx` and `pc` only, the others change `pc` only. -/
def Obligations.ComparesAndJumpsStoreNothing : Prop :=
  ∀ (s t : State) (size : Size) (a b : Operand) (k : Nat) (name : Label) (imm : Word),
    (∀ i ∈ [Instr.test size a b, .cmp size a b], exec i s = .next t →
      SameElse s t ∧ t.cells = s.cells ∧ SameBytes s.mem t.mem ∧ t.pc = s.pc + 1) ∧
    (exec (.loop k) s = .next t →
      SameElse s t ∧ t.flags = s.flags ∧ SameBytes s.mem t.mem ∧
      ∀ slot, slot ≠ .c → getCell t.cells slot = getCell s.cells slot) ∧
    (∀ i ∈ [Instr.jmp k, .jl k, .jle k, .je k, .jge k, .jg k, .ja k, .jae k, .jne k, .jz k, .jnz k,
        .call (.external name), .int imm], exec i s = .next t → OnlyPc s t)

/-- R104, R30: what each instruction does to the eight flags: a control instruction keeps them all; a data instruction that
is no producer clears them all or keeps them all, as `FLAG_CLEAR_SET` says; inc, dec and test clear the six relations and
give Equal and Zero one value; cmp's are R161's. -/
def Obligations.FlagsChangeOnlyAsTheClearAndTheProducersSay : Prop :=
  ∀ (s t : State) (i : Instr), exec i s = .next t →
    (isDataOp (opOf i) = false → t.flags = s.flags) ∧
    (opOf i ∈ plainDataOps → t.flags = flagsAfter (opOf i) s) ∧
    (opOf i ∈ [Op.inc, .dec, .test] → ∃ z, t.flags =
      { l := false, le := false, e := z, ge := false, g := false, a := false, ae := false, z := z }) ∧
    (opOf i ∈ [Op.inc, .dec, .test, .cmp] → t.flags.e = t.flags.z)

/-- R27: no instruction writes a cell but its destination's and those of its implicit uses. -/
def Obligations.OnlyNamedAndImplicitCellsAreWritten : Prop :=
  ∀ (s t : State) (i : Instr) (slot : Slot), exec i s = .next t → slot ∉ writtenSlots i →
    getCell t.cells slot = getCell s.cells slot

/-! ### The step -/

/-- R101, R105, R116, R225: where the line at `pc` decodes to an instruction, a step is that instruction's meaning; around
it, the step emits one trace event and ends the run when `pc = N`; a fault is taken in the state before the step. That the
trace is a list in the state is the model's choice (log entry 14). -/
def Obligations.StepRunsTheDecodedInstruction : Prop :=
  ∀ (s : State) (r : Record) (i : Instr), s.status = .running → Coherent s.params s.program →
    s.program.code[s.pc]? = some r → decodeLine s.params s.program.tables r.text = .ok (.known i) →
    (∀ t, exec i s = .next t →
      step s = .next { t with
        trace := t.trace ++ [{ pc := s.pc, kind := instrTraceKind i, hasMem := (operandsOf i).any isMem, text := r.text }]
        status := if t.pc = t.program.code.length then .halted else t.status }) ∧
    (∀ f, exec i s = .fault f →
      step s = .next { s with status := .faulted { fault := f, pc := s.pc, text := r.text } }) ∧
    ∀ q, exec i s ≠ .refused q

/-- R102, R116, R225: a line that contains the bypass pattern only advances `pc`, and is reported as bypassed; so is every
line whose record is Bypassed, which where `SpacedEsp` is `bypass` are more (log entry 11). The model's choices: that the event has no
memory operand (log entry 13), and that the trace is a list (log entry 14). -/
def Obligations.BypassedLineOnlyAdvances : Prop :=
  ∀ (s : State) (r : Record), s.status = .running → Coherent s.params s.program → s.program.code[s.pc]? = some r →
    containsText s.params.bypassPattern r.text = true ∨ r.kind = .bypassed →
    step s = .next { s with
      pc := s.pc + 1
      trace := s.trace ++ [{ pc := s.pc, kind := .bypassed, hasMem := false, text := r.text }]
      status := if s.pc + 1 = s.program.code.length then .halted else .running }

/-- R103, R116, R202, R225: an unknown mnemonic is skipped with a diagnostic, or faults, as `UNKNOWN_MNEMONIC_POLICY` says. The
model's choices in it: that the event has no memory operand (log entry 13), and that the trace is a list (log entry 14). -/
def Obligations.UnknownMnemonicFollowsThePolicy : Prop :=
  ∀ (s : State) (r : Record), s.status = .running → Coherent s.params s.program → s.program.code[s.pc]? = some r →
    containsText s.params.bypassPattern r.text = false → classify (mnemonicToken r.text) = .unknown →
    (s.params.unknownPolicy = .skip →
      step s = .next { s with
        pc := s.pc + 1
        diags := s.diags ++ [{ pc := s.pc, text := r.text }]
        trace := s.trace ++ [{ pc := s.pc, kind := .unknown, hasMem := false, text := r.text }]
        status := if s.pc + 1 = s.program.code.length then .halted else .running }) ∧
    (s.params.unknownPolicy = .fault →
      step s = .next { s with status := .faulted { fault := .unknownMnemonic s.pc, pc := s.pc, text := r.text } })

/-- R202, R112, R203: a step that ends in the status Faulted has changed nothing else, records the `pc` and line of the
instruction at which it stands, and no further step is enabled. -/
def Obligations.FaultsArePreciseAndTerminal : Prop :=
  ∀ (s t : State) (rec : FaultRecord), step s = .next t → t.status = .faulted rec → s.status = .running →
    t = { s with status := .faulted rec } ∧ rec.pc = s.pc ∧
    (∃ r, s.program.code[s.pc]? = some r ∧ rec.text = r.text) ∧ ∀ u, step t ≠ .next u

/-- R34, R101: a step happens only in Running with an instruction at `pc`, and there it always gives a next state. -/
def Obligations.StepsHappenExactlyInRunning : Prop :=
  ∀ (s : State), (∃ t, step s = .next t) ↔ (s.status = .running ∧ s.pc < s.program.code.length)

/-- R225, R185, R101: after a step the run is halted exactly when `pc = N`, unless the step faulted. -/
def Obligations.RunHaltsExactlyAtTheEnd : Prop :=
  ∀ (s t : State), s.status = .running → step s = .next t →
    (t.status = .halted ∧ t.pc = t.program.code.length) ∨
    (t.status = .running ∧ t.pc ≠ t.program.code.length) ∨
    (∃ rec, t.status = .faulted rec ∧ t.pc = s.pc)

/-- R116: each completed step appends one event, with the executed index and line, the kind and whether an operand is a
memory operand; a faulting step appends none. That a bypassed or unknown line has no memory operand (log entry 13), and that
the trace is a list (log entry 14), are the model's choices. -/
def Obligations.EachCompletedStepEmitsOneEvent : Prop :=
  ∀ (s t : State), s.status = .running → step s = .next t →
    ∃ r, s.program.code[s.pc]? = some r ∧
      (((∃ rec, t.status = .faulted rec) ∧ t.trace = s.trace) ∨
       ((∀ rec, t.status ≠ .faulted rec) ∧
        t.trace = s.trace ++ [{
          pc := s.pc
          kind :=
            match r.kind with
            | .bypassed => .bypassed
            | .unknown => .unknown
            | .known (.call (.external _)) => .externalCall
            | .known (.int _) => .passThroughInt
            | .known _ => .executed
          hasMem :=
            match r.kind with
            | .known i => (operandsOf i).any isMem
            | .unknown | .bypassed => false
          text := r.text }]))

/-- R35: the diagnostic list only grows, by one entry for an unknown line and by none otherwise. -/
def Obligations.DiagnosticsOnlyGrow : Prop :=
  ∀ (s t : State), step s = .next t →
    t.diags = s.diags ∨
    ∃ r, s.program.code[s.pc]? = some r ∧ r.kind = .unknown ∧ t.diags = s.diags ++ [{ pc := s.pc, text := r.text }]

/-- R33, R62: no step changes the program store or the parameters. -/
def Obligations.ProgramStoreIsReadOnly : Prop :=
  ∀ (s t : State), step s = .next t → t.program = s.program ∧ t.params = s.params

/-! ### Load and reset -/

/-- R36, R221, R222, R223: what a successful load leaves. -/
def Obligations.LoadLeavesTheResetState : Prop :=
  ∀ (s : State) (inp : LoadInput) (entry : Nat),
    inp.lines.length ≤ 2147483647 → inp.image.length ≤ s.params.capacity →
    (∀ line ∈ inp.lines, ∃ k, decodeLine s.params inp.tables line = .ok k) →
    lookupName inp.entry inp.tables.textLabels = some entry →
    let t := load s inp
    t.params = s.params ∧
    t.cells = { a := 0, b := 0, c := 0, d := 0, si := 0, di := 0, sp := s.params.spReset, bp := 0 } ∧
    t.flags = { l := false, le := false, e := false, ge := false, g := false, a := false, ae := false, z := false } ∧
    Memory.wf t.mem = true ∧ (∀ a, readByte t.mem a = inp.image.getD a 0) ∧
    t.pc = entry ∧ t.status = (if entry = inp.lines.length then .halted else .running) ∧
    t.diags = [] ∧ t.trace = [] ∧
    t.program.tables = inp.tables ∧ t.program.entry = inp.entry ∧
    t.program.code.map Record.text = inp.lines ∧ Coherent t.params t.program

/-- R201, R204, R222, R223: the load errors, in their order: program size, image size, the first failing line, the entry
label. -/
def Obligations.LoadErrorsAreReportedInOrder : Prop :=
  ∀ (s : State) (inp : LoadInput),
    (2147483647 < inp.lines.length → (load s inp).status = .loadRefused (.programTooLarge inp.lines.length)) ∧
    (inp.lines.length ≤ 2147483647 → s.params.capacity < inp.image.length →
      (load s inp).status = .loadRefused (.imageTooLarge inp.image.length)) ∧
    (inp.lines.length ≤ 2147483647 → inp.image.length ≤ s.params.capacity →
      (∀ before line after e, inp.lines = before ++ line :: after →
        (∀ l ∈ before, ∃ k, decodeLine s.params inp.tables l = .ok k) →
        decodeLine s.params inp.tables line = .error e →
        (load s inp).status = .loadRefused (match e with
          | .malformed check => .malformedInstruction before.length line check
          | .unresolved name => .unresolvedLabel (some before.length) name)) ∧
      ((∀ l ∈ inp.lines, ∃ k, decodeLine s.params inp.tables l = .ok k) →
        lookupName inp.entry inp.tables.textLabels = none →
        (load s inp).status = .loadRefused (.unresolvedLabel none inp.entry)))

/-- R221, R92: after a load error no step is enabled. -/
def Obligations.LoadErrorEnablesNoStep : Prop :=
  ∀ (s : State) (inp : LoadInput) (e : LoadError), (load s inp).status = .loadRefused e →
    step (load s inp) = .refused (.noRunnableProgram e)

/-- The invariant holds after every load that keeps the load port's contract (R222, R224). Where the load is refused, what the
state holds beside the status is the model's choice (log entry 7). -/
def Obligations.LoadEstablishesTheInvariant : Prop :=
  ∀ (s : State) (inp : LoadInput), inp.wf → Inv (load s inp)

/-! ### Decoding -/

/-- R71 to R94 on lines of every format: E1, E3, E7 to E9, E12 to E17, E20, E23, E25, E27, E28, E37 and E38 of
95_test_vectors.md Part 3, and lines written out from R93's table, some for each format that has no accepted line there (T2A,
T1W, T0, TI). The names of the failed checks are the model's (log entry 18). -/
def Obligations.SampleLinesDecodeAsTheSpecSays : Prop :=
  let tb : Tables := {
    textLabels := [("t".toList, 0)], dataLabels := [("lbl".toList, { size := .l, base := 0x40 })],
    externs := ["printf".toList] }
  let d := fun line => decodeLine defaultParams tb line
  d "movl $5, %eax".toList = .ok (.known (.mov .l (.imm 5) (.reg .eax))) ∧
  d "subb %bl, %al".toList = .ok (.known (.sub .b (.reg .bl) (.reg .al))) ∧
  d "mull %ebx".toList = .ok (.known (.mul .l (.reg .ebx))) ∧
  d "leaw -4(%ebx), %cx".toList =
    .ok (.known (.lea .w { base := some .ebx, index := none, scale := .x1, disp := 0xFFFFFFFC } (.reg .cx))) ∧
  d "leal %eax, %ebx".toList = .error (.malformed .leaSource) ∧
  d "testb $1, %al".toList = .ok (.known (.test .b (.imm 1) (.reg .al))) ∧
  d "cmpl $5, $6".toList = .ok (.known (.cmp .l (.imm 5) (.imm 6))) ∧
  d "incb %ah".toList = .ok (.known (.inc .b (.reg .ah))) ∧
  d "decw lbl".toList =
    .ok (.known (.dec .w (.mem { base := none, index := none, scale := .x1, disp := 0x40 }))) ∧
  d "pop %ebp".toList = .ok (.known (.pop .l (.reg .ebp))) ∧
  d "jl t".toList = .ok (.known (.jl 0)) ∧
  d "jll t".toList = .error (.malformed .suffixOnControl) ∧
  d "MOV $1, %eax".toList = .ok .unknown ∧
  d "subl $4, %esp".toList = .ok .bypassed ∧
  d "movl $1, $2".toList = .error (.malformed .immediateDestination) ∧
  d "jmp nowhere".toList = .error (.unresolved "nowhere".toList) ∧
  d "call printf".toList = .ok (.known (.call (.external "printf".toList))) ∧
  d "movl $-2147483648, %eax".toList = .ok (.known (.mov .l (.imm 0x80000000) (.reg .eax))) ∧
  d "movl $lbl, %eax".toList = .ok (.known (.mov .l (.imm 0x40) (.reg .eax))) ∧
  d "movb $'A', %al".toList = .ok (.known (.mov .b (.imm 0x41) (.reg .al))) ∧
  d "movb $',', %al".toList = .ok (.known (.mov .b (.imm 0x2C) (.reg .al))) ∧
  d "movl lbl, %eax".toList =
    .ok (.known (.mov .l (.mem { base := none, index := none, scale := .x1, disp := 0x40 }) (.reg .eax))) ∧
  d "movl 8(%esi,%edi,4), %eax".toList =
    .ok (.known (.mov .l (.mem { base := some .esi, index := some .edi, scale := .x4, disp := 8 }) (.reg .eax))) ∧
  d "ret".toList = .ok (.known .ret) ∧
  d "int $0x80".toList = .ok (.known (.int 0x80))

/-- R71, R72, R73, R93: the mnemonics are the 33 of R93's table, written out in its order, no two alike; each alone is itself
with size 4; with a suffix letter a data mnemonic has that size and a control mnemonic is malformed. -/
def Obligations.SuffixesGiveTheDeclaredSize : Prop :=
  allOps =
    [.mov, .add, .sub, .or, .xor, .and, .inc, .dec, .shl, .shr, .sar, .lea, .mul, .div, .push, .pop, .test, .cmp,
     .jmp, .jl, .jle, .je, .jge, .jg, .ja, .jae, .jne, .jz, .jnz, .loop, .call, .ret, .int] ∧
  allOps.map spelling = [
    "mov", "add", "sub", "or", "xor", "and", "inc", "dec", "shl", "shr", "sar", "lea", "mul", "div", "push", "pop",
    "test", "cmp", "jmp", "jl", "jle", "je", "jge", "jg", "ja", "jae", "jne", "jz", "jnz", "loop", "call", "ret",
    "int"].map String.toList ∧
  (∀ op : Op, op ∈ allOps) ∧ (allOps.map spelling).Nodup ∧
  ∀ op : Op,
    classify (spelling op) = .known op .l ∧
    ∀ size : Size, classify (spelling op ++ [suffixChar size]) =
      if isDataOp op then .known op size else .suffixedControl

/-- R78, R79: the encoder's literal is read back as its 32-bit pattern, for every pattern; a decimal, hexadecimal or binary
magnitude above the range is refused. -/
def Obligations.EveryPatternHasALiteral : Prop :=
  (∀ k : Word, ∃ v : Int, parseLiteral (literalText k) = some v ∧ literalWord v = .ok k ∧ v = k.toInt) ∧
  (∀ v : Int, v < -2147483648 ∨ 2147483647 < v → literalWord v = .error .literalRange)

/-- Decoding the canonical spelling of a well-formed instruction gives it back, for all 33 mnemonics and every operand the
grammar admits (30_encoding.md, R70 to R94), unless the line contains the bypass pattern. -/
def Obligations.DecodeOfEncodeIsTheInstruction : Prop :=
  ∀ (p : Params) (n : Nat) (tb : Tables) (i : Instr), tb.wf n = true → i.wf tb = true →
    ∃ line, encode tb i = some line ∧
      (containsText p.bypassPattern line = false → decodeLine p tb line = .ok (.known i)) ∧
      (containsText p.bypassPattern line = true → decodeLine p tb line = .ok .bypassed)

/-- R83 to R91, R94: the decoder gives only well-formed instructions. -/
def Obligations.DecodedInstructionsAreWellFormed : Prop :=
  ∀ (p : Params) (tb : Tables) (line : Text) (i : Instr),
    decodeLine p tb line = .ok (.known i) → i.wf tb = true

/-! ### Invariants -/

/-- The invariant holds of the state after reset. That this state has no program and is halted is the model's choice (log
entry 3). -/
def Obligations.InvariantHoldsAtReset : Prop := Inv State.reset

/-- Every step keeps the invariant: memory in canonical form and inside `[0, CAPACITY)`, `F.E = F.Z`, `pc` in `0 .. N`, the run
status agreeing with `pc`, and the program store coherent (R29, R30, R31, R33, R34, R53, R225). -/
def Obligations.EveryStepKeepsTheInvariant : Prop :=
  ∀ (s t : State), Inv s → step s = .next t → Inv t

/-- R30: Equal and Zero agree after every step from a state where they do. -/
def Obligations.EqualAndZeroStayEqual : Prop :=
  ∀ (s t : State), s.flags.e = s.flags.z → step s = .next t → t.flags.e = t.flags.z

/-- From every load that keeps the load port's contract, whatever the machine did before it, every state that steps reach has
the invariant, the loaded program and the parameters (R33, R62, R220). Where the load is refused no step follows, and what the
state holds beside the status, no program among it, is the model's choice (log entry 7). -/
def Obligations.ReachedStatesKeepTheInvariantAndTheProgram : Prop :=
  ∀ (s : State) (inp : LoadInput) (t : State), inp.wf → Reaches (load s inp) t →
    Inv t ∧ t.program = (load s inp).program ∧ t.params = s.params

/-! ### The stack pointer -/

/-- R227, R84, R102, R27: where the bypass pattern is `%esp` or a part of it, no executed instruction stands in a line that
contains the pattern, no executed instruction names `esp`, and `SP` changes only through push, pop, an internal call and ret;
but where `SpacedEsp` is `run`, which it is not by default, an instruction that names `esp` in a line without the pattern is
executed and may change `SP`. The cases of `SpacedEsp` are the model's (log entry 11). -/
def Obligations.SpChangesOnlyThroughTheStackInstructions : Prop :=
  ∀ (s t : State) (r : Record), s.status = .running → Coherent s.params s.program → s.program.code[s.pc]? = some r →
    containsText s.params.bypassPattern "%esp".toList = true → step s = .next t →
    (∀ i, r.kind = .known i → containsText s.params.bypassPattern r.text = false) ∧
    (s.params.spacedEsp ≠ .run → ∀ i, r.kind = .known i → ∀ o ∈ operandsOf i, namesView .esp o = false) ∧
    (t.cells.sp ≠ s.cells.sp → ∃ i, r.kind = .known i ∧
      (movesStack i ∨ (s.params.spacedEsp = .run ∧ ∃ o ∈ operandsOf i, namesView .esp o = true)))
end

