-- ==== Sys2Proof/Laws/Decode.lean ====
section
/-! SUPPORT. What each function of the decoder gives on what the encoder writes: literals, operand tokens, the split of an
operand text, mnemonics, and the format of each instruction. -/

namespace Sys2Proof

open Sys2Proof.Machine

@[simp] theorem decode_ok_bind {ε α β : Type} (a : α) (g : α → Except ε β) : (Except.ok a >>= g) = g a := rfl

@[simp] theorem decode_error_bind {ε α β : Type} (e : ε) (g : α → Except ε β) :
    ((Except.error e : Except ε α) >>= g) = .error e := rfl

theorem decode_bind_ok {ε α β : Type} {x : Except ε α} {g : α → Except ε β} {b : β} (h : (x >>= g) = .ok b) :
    ∃ a, x = .ok a ∧ g a = .ok b := by
  cases x with
  | ok a => exact ⟨a, rfl, h⟩
  | error e => cases h

/-! ### Tables -/

/-- A name bound once is found. -/
theorem lookupName_of_mem {α : Type} {table : List (Label × α)} (hn : (table.map Prod.fst).Nodup) {e : Label × α}
    (he : e ∈ table) : lookupName e.1 table = some e.2 := by
  induction table with
  | nil => cases he
  | cons a rest ih =>
    simp only [List.map_cons, List.nodup_cons] at hn
    simp only [lookupName]
    rcases List.mem_cons.1 he with rfl | he
    · simp
    · rw [if_neg, ih hn.2 he]
      intro h
      exact hn.1 (h ▸ List.mem_map_of_mem he)

theorem mem_of_lookupName {α : Type} {table : List (Label × α)} {name : Label} {x : α}
    (h : lookupName name table = some x) : (name, x) ∈ table := by
  induction table with
  | nil => cases h
  | cons a rest ih =>
    simp only [lookupName] at h
    split at h
    · rename_i ha
      injection h with h
      subst ha h
      exact List.mem_cons_self
    · exact List.mem_cons_of_mem _ (ih h)

/-- A value that the table binds has a name there. -/
theorem nameWith_of_any {α : Type} {p : α → Bool} {table : List (Label × α)} (h : table.any (fun e => p e.2) = true) :
    ∃ e ∈ table, p e.2 = true ∧ nameWith p table = some e.1 := by
  rw [List.any_eq_true] at h
  obtain ⟨x, hx, hp⟩ := h
  cases hf : table.find? (fun e => p e.2) with
  | none => exact absurd hp (by simpa using List.find?_eq_none.1 hf x hx)
  | some e => exact ⟨e, List.mem_of_find?_eq_some hf, List.find?_some (p := fun e : Label × α => p e.2) hf, by simp [nameWith, hf]⟩

theorem Tables.wf_text {n : Nat} {tb : Tables} (h : tb.wf n = true) {e : Label × Nat} (he : e ∈ tb.textLabels) :
    isIdent e.1 = true ∧ e.2 ≤ n ∧ lookupName e.1 tb.textLabels = some e.2 := by
  simp only [Tables.wf, Bool.and_eq_true, decide_eq_true_eq, List.all_eq_true] at h
  obtain ⟨⟨⟨h1, h2⟩, -⟩, -⟩ := h
  exact ⟨(h1 e he).1, (h1 e he).2, lookupName_of_mem h2 he⟩

theorem Tables.wf_data {n : Nat} {tb : Tables} (h : tb.wf n = true) {e : Label × DataLabel} (he : e ∈ tb.dataLabels) :
    isIdent e.1 = true ∧ lookupName e.1 tb.dataLabels = some e.2 := by
  simp only [Tables.wf, Bool.and_eq_true, decide_eq_true_eq, List.all_eq_true] at h
  obtain ⟨⟨-, h1⟩, h2⟩ := h
  exact ⟨h1 e he, lookupName_of_mem h2 he⟩

/-! ### Literals -/

theorem digitValue_hexDigit (d : Nat) (h : d < 16) : digitValue 16 (hexDigit d) = some d := by
  have : ∀ d < 16, digitValue 16 (hexDigit d) = some d := by decide
  exact this d h

theorem parseDigits_hexDigits (n k acc : Nat) :
    parseDigits 16 acc (hexDigits n k) = some (acc * 16 ^ k + n % 16 ^ k) := by
  induction k generalizing acc with
  | zero => simp [hexDigits, parseDigits, Nat.mod_one]
  | succ k ih =>
    simp only [hexDigits, parseDigits, digitValue_hexDigit _ (Nat.mod_lt _ (by decide : 0 < 16))]
    rw [ih, Nat.pow_succ, Nat.mod_mul (x := n) (a := 16 ^ k) (b := 16)]
    congr 1
    ring

theorem parseMagnitude_hex (n : Nat) (h : n < 2 ^ 32) : parseMagnitude ('0' :: 'x' :: hexDigits n 8) = some n := by
  have e : parseMagnitude ('0' :: 'x' :: hexDigits n 8) = parseRun 16 (hexDigits n 8) := by simp [parseMagnitude]
  have e' : parseRun 16 (hexDigits n 8) = parseDigits 16 0 (hexDigits n 8) := by simp [parseRun, hexDigits]
  rw [e, e', parseDigits_hexDigits]
  congr 1
  omega

/-- The encoder's literal is its pattern's signed value. -/
theorem parseLiteral_literalText (k : Word) : parseLiteral (literalText k) = some k.toInt := by
  have h1 : -(2 : Int) ^ 31 ≤ k.toInt := by have := BitVec.le_toInt k; simpa using this
  have h2 : k.toInt < (2 : Int) ^ 31 := by have := BitVec.toInt_lt (x := k); simpa using this
  unfold literalText
  split
  · simp only [parseLiteral]
    rw [if_pos True.intro, parseMagnitude_hex _ (by omega)]
    simp only [Option.map_some, Option.some.injEq]
    omega
  · simp only [parseLiteral]
    rw [if_neg (by decide), parseMagnitude_hex _ (by omega)]
    simp only [Option.map_some, Option.some.injEq]
    omega

theorem literalWord_toInt (k : Word) : literalWord k.toInt = .ok k := by
  have h1 := BitVec.le_toInt k
  have h2 := BitVec.toInt_lt (x := k)
  simp at h1 h2
  rw [literalWord, if_pos ⟨by omega, by omega⟩, BitVec.ofInt_toInt]

/-- The first character of a literal is a digit or a minus sign. -/
theorem literalText_head (k : Word) : ∃ c cs, literalText k = c :: cs ∧ (c = '-' ∨ c = '0') := by
  unfold literalText
  split
  · exact ⟨_, _, rfl, .inl rfl⟩
  · exact ⟨_, _, rfl, .inr rfl⟩

/-- A character that no split of a line acts on: neither a quote, nor white space, nor a comma, nor a parenthesis. -/
def plainChar (c : Char) : Bool :=
  c != quoteChar && !isSpace c && c != ',' && c != '(' && c != ')'

theorem plain_hexDigit (d : Nat) (h : d < 16) : plainChar (hexDigit d) = true := by
  have : ∀ d < 16, plainChar (hexDigit d) = true := by decide
  exact this d h

theorem plain_hexDigits (n k : Nat) : (hexDigits n k).all plainChar = true := by
  induction k with
  | zero => rfl
  | succ k ih =>
    simp only [hexDigits, List.all_cons, Bool.and_eq_true]
    exact ⟨plain_hexDigit _ (Nat.mod_lt _ (by decide)), ih⟩

theorem plain_literalText (k : Word) : (literalText k).all plainChar = true := by
  unfold literalText
  split
  · simp only [List.all_cons, plain_hexDigits, Bool.and_true]; decide
  · simp only [List.all_cons, plain_hexDigits, Bool.and_true]; decide

theorem plain_registerText (v : View) : (registerText v).all plainChar = true := by cases v <;> decide

theorem plain_scaleText (s : Scale) : (scaleText s).all plainChar = true := by cases s <;> decide

theorem plain_of_identRest {c : Char} (h : identRest c = true) : plainChar c = true := by
  have key : ∀ n : Nat, c.toNat = n → c = Char.ofNat n := by
    rintro n rfl; exact (Char.ofNat_toNat c).symm
  have no : ∀ d : Char, identRest d = false → c ≠ d := by rintro d hd rfl; rw [hd] at h; cases h
  have hs : isSpace c = false := by
    cases hs : isSpace c with
    | false => rfl
    | true =>
      simp only [isSpace, Bool.or_eq_true, beq_iff_eq, Bool.and_eq_true, decide_eq_true_eq] at hs
      have : c = Char.ofNat 32 ∨ c = Char.ofNat 9 ∨ c = Char.ofNat 10 ∨ c = Char.ofNat 11 ∨ c = Char.ofNat 12 ∨
          c = Char.ofNat 13 := by
        have : c.toNat = 32 ∨ c.toNat = 9 ∨ c.toNat = 10 ∨ c.toNat = 11 ∨ c.toNat = 12 ∨ c.toNat = 13 := by omega
        rcases this with e | e | e | e | e | e <;> simp [key _ e]
      rcases this with rfl | rfl | rfl | rfl | rfl | rfl <;> exact absurd h (by decide)
  simp [plainChar, hs, no quoteChar (by decide), no ',' (by decide), no '(' (by decide), no ')' (by decide)]

theorem identRest_of_ident {t : Text} (h : isIdent t = true) : t.all identRest = true := by
  cases t with
  | nil => rfl
  | cons c cs =>
    simp only [isIdent, Bool.and_eq_true] at h
    simp only [List.all_cons, Bool.and_eq_true]
    exact ⟨by simp [identRest, h.1], h.2⟩

theorem plain_of_ident {t : Text} (h : isIdent t = true) : t.all plainChar = true := by
  have := identRest_of_ident h
  rw [List.all_eq_true] at this ⊢
  exact fun c hc => plain_of_identRest (this c hc)

/-! ### The split into tokens -/

/-- A run of plain characters extends the current token, at any depth. -/
theorem splitTokens_plain (t : Text) (ht : t.all plainChar = true) (d : Nat) (cur rest : Text) :
    splitTokens d false cur (t ++ rest) = splitTokens d false (t.reverse ++ cur) rest := by
  induction t generalizing cur with
  | nil => rfl
  | cons c cs ih =>
    simp only [List.all_cons, Bool.and_eq_true] at ht
    obtain ⟨hc, hcs⟩ := ht
    simp only [plainChar, Bool.and_eq_true, bne_iff_ne, ne_eq, Bool.not_eq_true'] at hc
    obtain ⟨⟨⟨⟨h1, h2⟩, h3⟩, h4⟩, h5⟩ := hc
    simp only [List.cons_append, splitTokens, h1, h2, h3, h4, h5, if_false, Bool.false_eq_true]
    rw [ih hcs]
    simp

/-- A comma inside parentheses extends the current token. -/
theorem splitTokens_inner_comma (d : Nat) (cur rest : Text) :
    splitTokens (d + 1) false cur (',' :: rest) = splitTokens (d + 1) false (',' :: cur) rest := by
  have h1 : ',' ≠ quoteChar := by decide
  have h2 : isSpace ',' = false := by decide
  simp [splitTokens, h1, h2]

theorem splitTokens_open (d : Nat) (cur rest : Text) :
    splitTokens d false cur ('(' :: rest) = splitTokens (d + 1) false ('(' :: cur) rest := by
  have h1 : '(' ≠ quoteChar := by decide
  have h2 : isSpace '(' = false := by decide
  simp [splitTokens, h1, h2]

theorem splitTokens_close (d : Nat) (cur rest : Text) :
    splitTokens (d + 1) false cur (')' :: rest) = splitTokens d false (')' :: cur) rest := by
  have h1 : ')' ≠ quoteChar := by decide
  have h2 : isSpace ')' = false := by decide
  simp [splitTokens, h1, h2]

theorem splitTokens_comma (cur rest : Text) :
    splitTokens 0 false cur (',' :: rest) = cur.reverse :: splitTokens 0 false [] rest := by
  have h1 : ',' ≠ quoteChar := by decide
  have h2 : isSpace ',' = false := by decide
  simp [splitTokens, h1, h2]

theorem splitTokens_space (d : Nat) (cur rest : Text) :
    splitTokens d false cur (' ' :: rest) = splitTokens d false cur rest := by
  have h1 : ' ' ≠ quoteChar := by decide
  have h2 : isSpace ' ' = true := by decide
  simp [splitTokens, h1, h2]

/-- A text that is one token wherever it stands at depth 0. -/
def OneToken (t : Text) : Prop :=
  t ≠ [] ∧ ∀ cur rest, splitTokens 0 false cur (t ++ rest) = splitTokens 0 false (t.reverse ++ cur) rest

theorem oneToken_plain {t : Text} (hn : t ≠ []) (h : t.all plainChar = true) : OneToken t :=
  ⟨hn, splitTokens_plain t h 0⟩

theorem splitTokens_joinTokens {tokens : List Text} (hn : tokens ≠ []) (h : ∀ t ∈ tokens, OneToken t) :
    splitTokens 0 false [] (joinTokens tokens) = tokens := by
  induction tokens with
  | nil => exact absurd rfl hn
  | cons t ts ih =>
    have ht := (h t List.mem_cons_self).2 []
    cases ts with
    | nil =>
      have := ht []
      simp only [List.append_nil] at this
      simp [joinTokens, this, splitTokens]
    | cons t' ts =>
      rw [joinTokens, ht, splitTokens_comma, ih (by simp) fun x hx => h x (List.mem_cons_of_mem _ hx)]
      simp

theorem operandTokens_joinTokens {tokens : List Text} (hn : tokens ≠ []) (h : ∀ t ∈ tokens, OneToken t) :
    operandTokens (' ' :: joinTokens tokens) = .ok tokens := by
  have h1 : tokens ≠ [[]] := fun e => (h [] (e ▸ List.mem_cons_self)).1 rfl
  have h2 : tokens.any List.isEmpty = false := by
    rw [List.any_eq_false]
    intro t ht
    simpa using (h t ht).1
  simp only [operandTokens]
  rw [splitTokens_space, splitTokens_joinTokens hn h, if_neg h1, h2]
  rfl

/-! ### Operands -/

theorem parseRegister_registerText (v : View) : parseRegister (registerText v) = .ok v := by cases v <;> decide

theorem parseAddressRegister_registerText {v : View} (h : widthOf v = 32) :
    parseAddressRegister (registerText v) = .ok v := by
  simp [parseAddressRegister, parseRegister_registerText, h]

theorem parseScale_scaleText (s : Scale) : parseScale (scaleText s) = .ok s := by cases s <;> rfl

theorem takeWhile_before {p : Char → Bool} {t : Text} {c : Char} (rest : Text) (ht : t.all p = true) (hc : p c = false) :
    (t ++ c :: rest).takeWhile p = t ∧ (t ++ c :: rest).dropWhile p = c :: rest := by
  induction t with
  | nil => simp [hc]
  | cons a as ih =>
    simp only [List.all_cons, Bool.and_eq_true] at ht
    obtain ⟨i1, i2⟩ := ih ht.2
    simp [ht.1, i1, i2]

theorem takeWhile_all {p : Char → Bool} {t : Text} (ht : t.all p = true) : t.takeWhile p = t ∧ t.dropWhile p = [] := by
  induction t with
  | nil => simp
  | cons a as ih =>
    simp only [List.all_cons, Bool.and_eq_true] at ht
    obtain ⟨i1, i2⟩ := ih ht.2
    simp [ht.1, i1, i2]

theorem all_of_plain {p : Char → Bool} {t : Text} (ht : t.all plainChar = true) (h : ∀ c, plainChar c = true → p c = true) :
    t.all p = true := by
  rw [List.all_eq_true] at ht ⊢
  exact fun c hc => h c (ht c hc)

theorem plain_not_open (c : Char) (h : plainChar c = true) : (c != '(') = true := by
  simp only [plainChar, Bool.and_eq_true] at h
  exact h.1.2

theorem plain_not_comma {c : Char} (h : plainChar c = true) : c ≠ ',' := by
  simp only [plainChar, Bool.and_eq_true, bne_iff_ne] at h
  exact h.1.1.2

theorem plain_not_space (c : Char) (h : plainChar c = true) : (!isSpace c) = true := by
  simp only [plainChar, Bool.and_eq_true] at h
  exact h.1.1.1.2

theorem splitCommas_plain (t : Text) (ht : t.all plainChar = true) (cur rest : Text) :
    splitCommas cur (t ++ rest) = splitCommas (t.reverse ++ cur) rest := by
  induction t generalizing cur with
  | nil => rfl
  | cons c cs ih =>
    simp only [List.all_cons, Bool.and_eq_true] at ht
    simp only [List.cons_append, splitCommas, if_neg (plain_not_comma ht.1)]
    rw [ih ht.2]
    simp

theorem splitCommas_three {a b c : Text} (ha : a.all plainChar = true) (hb : b.all plainChar = true)
    (hc : c.all plainChar = true) : splitCommas [] (a ++ ',' :: (b ++ ',' :: c)) = [a, b, c] := by
  rw [splitCommas_plain a ha]
  simp only [splitCommas, if_true]
  rw [splitCommas_plain b hb]
  simp only [splitCommas, if_true]
  have := splitCommas_plain c hc [] []
  simp only [List.append_nil] at this
  rw [this]
  simp [splitCommas]

theorem splitCommas_one {a : Text} (ha : a.all plainChar = true) : splitCommas [] a = [a] := by
  have := splitCommas_plain a ha [] []
  simp only [List.append_nil] at this
  rw [this]
  simp [splitCommas]

theorem parseDisp_literalText (k : Word) : parseDisp (literalText k) = .ok k := by
  obtain ⟨c, cs, e, -⟩ := literalText_head k
  have : (literalText k).isEmpty = false := by rw [e]; rfl
  simp [parseDisp, this, parseLiteral_literalText, literalWord_toInt]

/-- A memory token: the displacement, then what stands between the parentheses. -/
theorem parseMemory_text (disp : Word) (inner : Text) :
    parseMemory (literalText disp ++ '(' :: (inner ++ [')'])) = parseAddress disp (splitCommas [] inner) := by
  obtain ⟨h1, h2⟩ := takeWhile_before (p := fun c => c != '(') (c := '(') (inner ++ [')'])
    (all_of_plain (plain_literalText disp) plain_not_open) (by decide)
  simp only [parseMemory, h1, h2]
  simp [parseDisp_literalText]

theorem memory_token_head (disp : Word) (inner : Text) (tb : Tables) :
    parseOperand tb (literalText disp ++ '(' :: inner) = (parseMemory (literalText disp ++ '(' :: inner)).map .mem := by
  obtain ⟨c, cs, e, hc⟩ := literalText_head disp
  have h : (literalText disp ++ '(' :: inner).contains '(' = true := by simp
  rw [e] at h ⊢
  rcases hc with rfl | rfl
  · simp only [List.cons_append, parseOperand] at h ⊢
    rw [if_neg (by decide), if_neg (by decide), if_pos h]
  · simp only [List.cons_append, parseOperand] at h ⊢
    rw [if_neg (by decide), if_neg (by decide), if_pos h]

theorem parseOperand_ident {tb : Tables} {name : Label} {d : DataLabel} (hi : isIdent name = true)
    (hl : lookupName name tb.dataLabels = some d) : parseOperand tb name = .ok (.mem (labelRef d)) := by
  have hall := identRest_of_ident hi
  rw [List.all_eq_true] at hall
  have hnot : ∀ c, identRest c = false → c ∉ name := fun c hc hm => by rw [hall c hm] at hc; cases hc
  have hp : ('%' : Char) ∉ name := hnot _ (by decide)
  have hd : ('$' : Char) ∉ name := hnot _ (by decide)
  have ho : name.contains '(' = false := by simpa using hnot '(' (by decide)
  cases name with
  | nil => cases hi
  | cons c cs =>
    simp only [List.mem_cons, not_or] at hp hd
    simp only [parseOperand, if_neg (Ne.symm hp.1), if_neg (Ne.symm hd.1), ho, hi, hl, if_true, Bool.false_eq_true, if_false]

/-- Every operand that the tables admit has a spelling, which is one token and reads back as the operand. -/
theorem encodeOperand_spec {n : Nat} {tb : Tables} (ht : tb.wf n = true) {o : Operand} (ho : o.wf tb = true) :
    ∃ t, encodeOperand tb o = some t ∧ OneToken t ∧ parseOperand tb t = .ok o := by
  cases o with
  | reg v =>
    refine ⟨registerText v, rfl, oneToken_plain (by simp [registerText]) (plain_registerText v), ?_⟩
    have := parseRegister_registerText v
    simp only [registerText] at this ⊢
    simp [parseOperand, this, Except.map]
  | imm k =>
    refine ⟨'$' :: literalText k, rfl, oneToken_plain (by simp) ?_, ?_⟩
    · simp only [List.all_cons, plain_literalText, Bool.and_true]; decide
    · simp [parseOperand, parseImmediate, parseLiteral_literalText, literalWord_toInt, Except.map]
  | mem m =>
    obtain ⟨base, index, scale, disp⟩ := m
    simp only [Operand.wf, MemRef.wf] at ho
    cases base with
    | none =>
      simp only [Bool.and_eq_true, Option.isNone_iff_eq_none, beq_iff_eq] at ho
      obtain ⟨⟨rfl, rfl⟩, h⟩ := ho
      obtain ⟨e, he, hb, hn⟩ := nameWith_of_any (p := fun d : DataLabel => d.base == disp) h
      obtain ⟨hi, hl⟩ := Tables.wf_data ht he
      refine ⟨e.1, hn, oneToken_plain (fun h0 => by rw [h0] at hi; cases hi) (plain_of_ident hi), ?_⟩
      rw [parseOperand_ident hi hl]
      simp only [beq_iff_eq] at hb
      simp [labelRef, hb]
    | some b =>
      cases index with
      | none =>
        simp only [Bool.and_eq_true, beq_iff_eq] at ho
        obtain ⟨hb, rfl⟩ := ho
        refine ⟨literalText disp ++ '(' :: (registerText b ++ [')']), by simp [encodeOperand, memoryText],
          ⟨by simp, fun cur rest => ?_⟩, ?_⟩
        · rw [List.append_assoc, splitTokens_plain _ (plain_literalText disp), List.cons_append, splitTokens_open,
            List.append_assoc, splitTokens_plain _ (plain_registerText b), List.cons_append, splitTokens_close]
          simp
        · rw [memory_token_head, parseMemory_text, splitCommas_one (plain_registerText b)]
          simp [parseAddress, parseAddressRegister_registerText hb, Except.map]
      | some i =>
        simp only [Bool.and_eq_true, beq_iff_eq] at ho
        obtain ⟨hb, hi⟩ := ho
        refine ⟨literalText disp ++ '(' :: ((registerText b ++ ',' :: (registerText i ++ ',' :: scaleText scale)) ++ [')']),
          by simp [encodeOperand, memoryText], ⟨by simp, fun cur rest => ?_⟩, ?_⟩
        · simp only [List.append_assoc, List.cons_append]
          rw [splitTokens_plain _ (plain_literalText disp), splitTokens_open, splitTokens_plain _ (plain_registerText b),
            splitTokens_inner_comma, splitTokens_plain _ (plain_registerText i), splitTokens_inner_comma,
            splitTokens_plain _ (plain_scaleText scale), List.nil_append, splitTokens_close]
          simp
        · rw [memory_token_head, parseMemory_text,
            splitCommas_three (plain_registerText b) (plain_registerText i) (plain_scaleText scale)]
          simp [parseAddress, parseAddressRegister_registerText hb, parseAddressRegister_registerText hi,
            parseScale_scaleText, Except.map]

theorem asDest_destOperand (d : Dest) : asDest (destOperand d) = .ok d := by cases d <;> rfl

/-! ### Mnemonics -/

/-- The encoder's mnemonic token is read back. -/
theorem classify_spelling (op : Op) (size : Size) :
    classify (spelling op ++ [suffixChar size]) = if isDataOp op then .known op size else .suffixedControl := by
  cases op <;> cases size <;> decide

theorem classify_spelling_alone (op : Op) : classify (spelling op) = .known op .l := by cases op <;> decide

theorem declaredSize_control {i : Instr} (h : isDataOp (opOf i) = false) : declaredSize i = .l := by
  cases i <;> first | rfl | cases h

theorem classify_mnemonicText (i : Instr) : classify (mnemonicText i) = .known (opOf i) (declaredSize i) := by
  unfold mnemonicText
  cases h : isDataOp (opOf i) with
  | true => rw [if_pos rfl, classify_spelling, h, if_pos rfl]
  | false => rw [if_neg (by decide), classify_spelling_alone, declaredSize_control h]

theorem plain_spelling (op : Op) : (spelling op).all plainChar = true := by cases op <;> decide

theorem mnemonicText_plain (i : Instr) : (mnemonicText i).all plainChar = true := by
  unfold mnemonicText
  split
  · rw [List.all_append, plain_spelling]
    cases declaredSize i <;> decide
  · exact plain_spelling _

theorem spelling_ne_nil (op : Op) : spelling op ≠ [] := by cases op <;> decide

theorem mnemonicText_ne_nil (i : Instr) : mnemonicText i ≠ [] := by
  unfold mnemonicText
  split
  · simp
  · exact spelling_ne_nil _

/-- A line that is a mnemonic token, then a space and something, or nothing. -/
theorem line_parts {m : Text} (hm : m.all plainChar = true) (hn : m ≠ []) (rest : Text) :
    mnemonicToken (m ++ ' ' :: rest) = m ∧ operandText (m ++ ' ' :: rest) = ' ' :: rest ∧
    mnemonicToken m = m ∧ operandText m = [] := by
  have ha := all_of_plain hm plain_not_space
  cases m with
  | nil => exact absurd rfl hn
  | cons c cs =>
    have hc : isSpace c = false := by
      simp only [List.all_cons, Bool.and_eq_true, Bool.not_eq_true'] at ha
      exact ha.1
    have hd : ∀ r : Text, (c :: r).dropWhile isSpace = c :: r := fun r => by simp [hc]
    obtain ⟨h1, h2⟩ := takeWhile_before (p := fun c => !isSpace c) (c := ' ') rest ha (by decide)
    obtain ⟨h3, h4⟩ := takeWhile_all (p := fun c => !isSpace c) ha
    simp only [List.cons_append] at h1 h2 ⊢
    simp only [mnemonicToken, operandText, hd]
    exact ⟨h1, h2, h3, h4⟩

/-! ### Formats -/

/-- The tokens of a well-formed instruction: each is one token, and the format of its mnemonic reads them back. -/
theorem encodeTokens_spec {n : Nat} {tb : Tables} (ht : tb.wf n = true) {i : Instr} (hi : i.wf tb = true) :
    ∃ tokens, encodeTokens tb i = some tokens ∧ (∀ t ∈ tokens, OneToken t) ∧
      decodeOperands tb (opOf i) (declaredSize i) tokens = .ok i := by
  simp only [Instr.wf, Bool.and_eq_true] at hi
  obtain ⟨hops, htgt⟩ := hi
  have two : ∀ {o o' : Operand}, o.wf tb = true → o'.wf tb = true → ∃ x y,
      encodeOperand tb o = some x ∧ encodeOperand tb o' = some y ∧ (∀ t ∈ [x, y], OneToken t) ∧
      parseOperand tb x = .ok o ∧ parseOperand tb y = .ok o' := by
    intro o o' h h'
    obtain ⟨x, e1, o1, p1⟩ := encodeOperand_spec ht h
    obtain ⟨y, e2, o2, p2⟩ := encodeOperand_spec ht h'
    refine ⟨x, y, e1, e2, ?_, p1, p2⟩
    intro t htm
    simp only [List.mem_cons, List.not_mem_nil, or_false] at htm
    rcases htm with rfl | rfl
    · exact o1
    · exact o2
  have one : ∀ {o : Operand}, o.wf tb = true → ∃ x, encodeOperand tb o = some x ∧ (∀ t ∈ [x], OneToken t) ∧
      parseOperand tb x = .ok o := by
    intro o h
    obtain ⟨x, e1, o1, p1⟩ := encodeOperand_spec ht h
    exact ⟨x, e1, by simpa using o1, p1⟩
  have name : ∀ {k : Nat}, tb.textLabels.any (fun e => e.2 == k) = true → ∃ x,
      encodeTarget tb (.internal k) = some x ∧ (∀ t ∈ [x], OneToken t) ∧ isIdent x = true ∧
      lookupName x tb.textLabels = some k := by
    intro k h
    obtain ⟨e, he, hb, hn⟩ := nameWith_of_any (p := fun m : Nat => m == k) h
    obtain ⟨hid, -, hl⟩ := Tables.wf_text ht he
    simp only [beq_iff_eq] at hb
    refine ⟨e.1, hn, ?_, hid, hb ▸ hl⟩
    simpa using oneToken_plain (fun h0 => by rw [h0] at hid; cases hid) (plain_of_ident hid)
  cases i with
  | mov size src dst | add size src dst | sub size src dst | or size src dst | xor size src dst | and size src dst
  | shl size src dst | shr size src dst | sar size src dst =>
    simp only [operandsOf, List.all_cons, List.all_nil, Bool.and_true, Bool.and_eq_true] at hops
    obtain ⟨x, y, e1, e2, hot, p1, p2⟩ := two hops.1 hops.2
    refine ⟨[x, y], by simp [encodeTokens, targetOf, operandsOf, e1, e2], hot, ?_⟩
    simp [opOf, declaredSize, decodeOperands, formatT2W, p1, p2, asDest_destOperand, liftCheck]
  | inc size dst | dec size dst | pop size dst =>
    simp only [operandsOf, List.all_cons, List.all_nil, Bool.and_true] at hops
    obtain ⟨x, e1, hot, p1⟩ := one hops
    refine ⟨[x], by simp [encodeTokens, targetOf, operandsOf, e1], hot, ?_⟩
    simp [opOf, declaredSize, decodeOperands, formatT1W, p1, asDest_destOperand, liftCheck]
  | lea size src dst =>
    simp only [operandsOf, List.all_cons, List.all_nil, Bool.and_true, Bool.and_eq_true] at hops
    obtain ⟨x, y, e1, e2, hot, p1, p2⟩ := two hops.1 hops.2
    refine ⟨[x, y], by simp [encodeTokens, targetOf, operandsOf, e1, e2], hot, ?_⟩
    simp [opOf, declaredSize, decodeOperands, formatT2A, p1, p2, asDest_destOperand, asMemory, liftCheck]
  | mul size src | div size src | push size src =>
    simp only [operandsOf, List.all_cons, List.all_nil, Bool.and_true] at hops
    obtain ⟨x, e1, hot, p1⟩ := one hops
    refine ⟨[x], by simp [encodeTokens, targetOf, operandsOf, e1], hot, ?_⟩
    simp [opOf, declaredSize, decodeOperands, formatT1R, p1, liftCheck]
  | test size src dst | cmp size src dst =>
    simp only [operandsOf, List.all_cons, List.all_nil, Bool.and_true, Bool.and_eq_true] at hops
    obtain ⟨x, y, e1, e2, hot, p1, p2⟩ := two hops.1 hops.2
    refine ⟨[x, y], by simp [encodeTokens, targetOf, operandsOf, e1, e2], hot, ?_⟩
    simp [opOf, declaredSize, decodeOperands, formatT2R, p1, p2, liftCheck]
  | jmp k | jl k | jle k | je k | jge k | jg k | ja k | jae k | jne k | jz k | jnz k | loop k =>
    obtain ⟨x, e1, hot, hid, hl⟩ := name htgt
    refine ⟨[x], by simp [encodeTokens, targetOf, e1], hot, ?_⟩
    simp [opOf, decodeOperands, formatTL, targetToken, hid, hl, liftCheck]
  | call target =>
    cases target with
    | internal k =>
      obtain ⟨x, e1, hot, hid, hl⟩ := name htgt
      refine ⟨[x], by simp [encodeTokens, targetOf, e1], hot, ?_⟩
      simp [opOf, decodeOperands, formatCall, targetToken, hid, hl, liftCheck]
    | external nm =>
      simp only [targetOf, Target.wf, Bool.and_eq_true, Option.isNone_iff_eq_none] at htgt
      obtain ⟨⟨hid, hx⟩, hl⟩ := htgt
      refine ⟨[nm], rfl, ?_, ?_⟩
      · simpa using oneToken_plain (fun h0 => by rw [h0] at hid; cases hid) (plain_of_ident hid)
      · simp only [opOf, decodeOperands, formatCall, targetToken, hid, hl, liftCheck, if_true, decode_ok_bind, hx]
  | ret => exact ⟨[], rfl, by simp, rfl⟩
  | int imm =>
    obtain ⟨x, e1, hot, p1⟩ := one (o := .imm imm) rfl
    refine ⟨[x], by simp [encodeTokens, targetOf, operandsOf, e1], hot, ?_⟩
    simp [opOf, decodeOperands, formatTI, p1, liftCheck]

/-! ### What the decoder gives is well formed -/

theorem parseAddressRegister_ok {t : Text} {v : View} (h : parseAddressRegister t = .ok v) : widthOf v = 32 := by
  unfold parseAddressRegister at h
  split at h
  · split at h
    · injection h with h; subst h; assumption
    · cases h
  · cases h

theorem parseAddress_wf {tb : Tables} {disp : Word} {parts : List Text} {m : MemRef} (h : parseAddress disp parts = .ok m) :
    m.wf tb = true := by
  unfold parseAddress at h
  split at h
  · obtain ⟨b, hb, h⟩ := decode_bind_ok h
    injection h with h; subst h
    simp [MemRef.wf, parseAddressRegister_ok hb]
  · obtain ⟨b, hb, h⟩ := decode_bind_ok h
    obtain ⟨i, hi, h⟩ := decode_bind_ok h
    obtain ⟨s, -, h⟩ := decode_bind_ok h
    injection h with h; subst h
    simp [MemRef.wf, parseAddressRegister_ok hb, parseAddressRegister_ok hi]
  · cases h

theorem parseMemory_wf {tb : Tables} {t : Text} {m : MemRef} (h : parseMemory t = .ok m) : m.wf tb = true := by
  unfold parseMemory at h
  simp only at h
  split at h
  · obtain ⟨d, -, h⟩ := decode_bind_ok h
    exact parseAddress_wf h
  · cases h

theorem map_ok {α β : Type} {x : Except Check α} {g : α → β} {b : β} (h : x.map g = .ok b) :
    ∃ a, x = .ok a ∧ g a = b := by
  cases x with
  | ok a => exact ⟨a, rfl, by simpa [Except.map] using h⟩
  | error e => cases h

theorem parseOperand_wf {tb : Tables} {t : Text} {o : Operand} (h : parseOperand tb t = .ok o) : o.wf tb = true := by
  unfold parseOperand at h
  split at h
  · cases h
  · split at h
    · obtain ⟨v, -, rfl⟩ := map_ok h; rfl
    · split at h
      · obtain ⟨k, -, rfl⟩ := map_ok h; rfl
      · split at h
        · obtain ⟨m, hm, rfl⟩ := map_ok h; exact parseMemory_wf hm
        · split at h
          · split at h
            · rename_i d hd
              injection h with h; subst h
              simp only [Operand.wf, MemRef.wf, labelRef, Option.isNone_none, Bool.true_and, Bool.and_eq_true]
              exact ⟨by decide, List.any_eq_true.2 ⟨_, mem_of_lookupName hd, by simp⟩⟩
            · cases h
          · cases h

/-- The operand is what one of the tokens says. -/
def ParsedFrom (tb : Tables) (tokens : List Text) (o : Operand) : Prop := ∃ t ∈ tokens, parseOperand tb t = .ok o

theorem ParsedFrom.wf {tb : Tables} {tokens : List Text} {o : Operand} (h : ParsedFrom tb tokens o) : o.wf tb = true := by
  obtain ⟨t, -, h⟩ := h
  exact parseOperand_wf h

theorem asDest_ok {o : Operand} {d : Dest} (h : asDest o = .ok d) : o = destOperand d := by
  cases o with
  | reg v | mem m => cases h; rfl
  | imm k => cases h

theorem asMemory_ok {o : Operand} {m : MemRef} (h : asMemory o = .ok m) : o = .mem m := by
  cases o with
  | mem m => cases h; rfl
  | reg v | imm k => cases h

theorem liftCheck_ok {α : Type} {x : Except Check α} {a : α} (h : liftCheck x = .ok a) : x = .ok a := by
  cases x with
  | ok b => simpa [liftCheck] using h
  | error e => cases h

theorem formatT2W_ok {tb : Tables} {mk : Operand → Dest → Instr} {tokens : List Text} {i : Instr}
    (h : formatT2W tb mk tokens = .ok i) :
    ∃ src dst, i = mk src dst ∧ ParsedFrom tb tokens src ∧ ParsedFrom tb tokens (destOperand dst) := by
  unfold formatT2W at h
  split at h
  · obtain ⟨o, ho, h⟩ := decode_bind_ok h
    obtain ⟨o', ho', h⟩ := decode_bind_ok h
    obtain ⟨d, hd, h⟩ := decode_bind_ok h
    injection h with h
    exact ⟨o, d, h.symm, ⟨_, by simp, ho⟩, ⟨_, by simp, asDest_ok hd ▸ ho'⟩⟩
  · cases h

theorem formatT2A_ok {tb : Tables} {mk : MemRef → Dest → Instr} {tokens : List Text} {i : Instr}
    (h : formatT2A tb mk tokens = .ok i) :
    ∃ m dst, i = mk m dst ∧ ParsedFrom tb tokens (.mem m) ∧ ParsedFrom tb tokens (destOperand dst) := by
  unfold formatT2A at h
  split at h
  · obtain ⟨o, ho, h⟩ := decode_bind_ok h
    obtain ⟨o', ho', h⟩ := decode_bind_ok h
    obtain ⟨m, hm, h⟩ := decode_bind_ok h
    obtain ⟨d, hd, h⟩ := decode_bind_ok h
    injection h with h
    exact ⟨m, d, h.symm, ⟨_, by simp, asMemory_ok hm ▸ ho⟩, ⟨_, by simp, asDest_ok hd ▸ ho'⟩⟩
  · cases h

theorem formatT2R_ok {tb : Tables} {mk : Operand → Operand → Instr} {tokens : List Text} {i : Instr}
    (h : formatT2R tb mk tokens = .ok i) :
    ∃ src dst, i = mk src dst ∧ ParsedFrom tb tokens src ∧ ParsedFrom tb tokens dst := by
  unfold formatT2R at h
  split at h
  · obtain ⟨o, ho, h⟩ := decode_bind_ok h
    obtain ⟨o', ho', h⟩ := decode_bind_ok h
    injection h with h
    exact ⟨o, o', h.symm, ⟨_, by simp, ho⟩, ⟨_, by simp, ho'⟩⟩
  · cases h

theorem formatT1W_ok {tb : Tables} {mk : Dest → Instr} {tokens : List Text} {i : Instr}
    (h : formatT1W tb mk tokens = .ok i) : ∃ dst, i = mk dst ∧ ParsedFrom tb tokens (destOperand dst) := by
  unfold formatT1W at h
  split at h
  · obtain ⟨o, ho, h⟩ := decode_bind_ok h
    obtain ⟨d, hd, h⟩ := decode_bind_ok h
    injection h with h
    exact ⟨d, h.symm, _, by simp, asDest_ok hd ▸ ho⟩
  · cases h

theorem formatT1R_ok {tb : Tables} {mk : Operand → Instr} {tokens : List Text} {i : Instr}
    (h : formatT1R tb mk tokens = .ok i) : ∃ src, i = mk src ∧ ParsedFrom tb tokens src := by
  unfold formatT1R at h
  split at h
  · obtain ⟨o, ho, h⟩ := decode_bind_ok h
    injection h with h
    exact ⟨o, h.symm, _, by simp, ho⟩
  · cases h

theorem formatTI_ok {tb : Tables} {mk : Word → Instr} {tokens : List Text} {i : Instr}
    (h : formatTI tb mk tokens = .ok i) : ∃ k, i = mk k ∧ ParsedFrom tb tokens (.imm k) := by
  unfold formatTI at h
  split at h
  · obtain ⟨o, ho, h⟩ := decode_bind_ok h
    cases o with
    | imm k => injection h with h; exact ⟨k, h.symm, _, by simp, ho⟩
    | reg v => cases h
    | mem m => cases h
  · cases h

theorem targetToken_ok {tokens : List Text} {name : Label} (h : targetToken tokens = .ok name) : isIdent name = true := by
  unfold targetToken at h
  split at h
  · split at h
    · injection h with h; subst h; assumption
    · cases h
  · cases h

theorem formatTL_ok {tb : Tables} {mk : Nat → Instr} {tokens : List Text} {i : Instr}
    (h : formatTL tb mk tokens = .ok i) : ∃ k, i = mk k ∧ (Target.internal k).wf tb = true := by
  unfold formatTL at h
  obtain ⟨name, -, h⟩ := decode_bind_ok h
  split at h
  · rename_i k hk
    injection h with h
    exact ⟨k, h.symm, List.any_eq_true.2 ⟨_, mem_of_lookupName hk, by simp⟩⟩
  · cases h

theorem formatCall_ok {tb : Tables} {mk : Target → Instr} {tokens : List Text} {i : Instr}
    (h : formatCall tb mk tokens = .ok i) : ∃ t, i = mk t ∧ t.wf tb = true := by
  unfold formatCall at h
  obtain ⟨name, hn, h⟩ := decode_bind_ok h
  split at h
  · rename_i k hk
    injection h with h
    exact ⟨_, h.symm, List.any_eq_true.2 ⟨_, mem_of_lookupName hk, by simp⟩⟩
  · rename_i hnone
    split at h
    · rename_i hx
      injection h with h
      refine ⟨_, h.symm, ?_⟩
      simp only [Target.wf, Bool.and_eq_true, Option.isNone_iff_eq_none]
      exact ⟨⟨targetToken_ok (liftCheck_ok hn), hx⟩, hnone⟩
    · cases h

/-- The operands of a decoded instruction are what its tokens say, and its target is one the tables admit. -/
theorem decodeOperands_ok {tb : Tables} {op : Op} {size : Size} {tokens : List Text} {i : Instr}
    (h : decodeOperands tb op size tokens = .ok i) :
    (∀ o ∈ operandsOf i, ParsedFrom tb tokens o) ∧ ∀ t, targetOf i = some t → t.wf tb = true := by
  cases op with
  | mov | add | sub | or | xor | and | shl | shr | sar =>
    obtain ⟨src, dst, rfl, h1, h2⟩ := formatT2W_ok (liftCheck_ok h)
    simp [operandsOf, targetOf, h1, h2]
  | inc | dec | pop =>
    obtain ⟨dst, rfl, h1⟩ := formatT1W_ok (liftCheck_ok h)
    simp [operandsOf, targetOf, h1]
  | lea =>
    obtain ⟨m, dst, rfl, h1, h2⟩ := formatT2A_ok (liftCheck_ok h)
    simp [operandsOf, targetOf, h1, h2]
  | mul | div | push =>
    obtain ⟨src, rfl, h1⟩ := formatT1R_ok (liftCheck_ok h)
    simp [operandsOf, targetOf, h1]
  | test | cmp =>
    obtain ⟨src, dst, rfl, h1, h2⟩ := formatT2R_ok (liftCheck_ok h)
    simp [operandsOf, targetOf, h1, h2]
  | jmp | jl | jle | je | jge | jg | ja | jae | jne | jz | jnz | loop =>
    obtain ⟨k, rfl, h1⟩ := formatTL_ok h
    simp [operandsOf, targetOf, h1]
  | call =>
    obtain ⟨t, rfl, h1⟩ := formatCall_ok h
    simp [operandsOf, targetOf, h1]
  | ret =>
    have h := liftCheck_ok h
    unfold formatT0 at h
    split at h
    · injection h with h; subst h; simp [operandsOf, targetOf]
    · cases h
  | int =>
    obtain ⟨k, rfl, h1⟩ := formatTI_ok (liftCheck_ok h)
    simp [operandsOf, targetOf, h1]

theorem decodeOperands_wf {tb : Tables} {op : Op} {size : Size} {tokens : List Text} {i : Instr}
    (h : decodeOperands tb op size tokens = .ok i) : i.wf tb = true := by
  obtain ⟨h1, h2⟩ := decodeOperands_ok h
  simp only [Instr.wf, Bool.and_eq_true, List.all_eq_true]
  refine ⟨fun o ho => (h1 o ho).wf, ?_⟩
  cases ht : targetOf i with
  | none => rfl
  | some t => exact h2 t ht

/-- Everything `kindOf` can do when it keeps the instruction. -/
theorem kindOf_known {p : Params} {i j : Instr} (h : kindOf p i = .ok (.known j)) :
    i = j ∧ (p.spacedEsp = .run ∨ namesBypassedEsp p i = false) := by
  unfold kindOf at h
  split at h
  · split at h
    · cases h
    · rename_i hp
      cases h
      exact ⟨rfl, .inl hp⟩
    · cases h
  · rename_i hh
    cases h
    exact ⟨rfl, .inr (by simpa using hh)⟩

/-- What a line that decodes to an instruction went through. -/
theorem decodeLine_known {p : Params} {tb : Tables} {line : Text} {i : Instr}
    (h : decodeLine p tb line = .ok (.known i)) :
    containsText p.bypassPattern line = false ∧ (p.spacedEsp = .run ∨ namesBypassedEsp p i = false) ∧
    ∃ op size tokens, classify (mnemonicToken line) = .known op size ∧
      operandTokens (operandText line) = .ok tokens ∧ decodeOperands tb op size tokens = .ok i := by
  unfold decodeLine at h
  split at h
  · cases h
  · rename_i hb
    unfold decodeUnbypassed at h
    split at h
    · cases h
    · cases h
    · rename_i op size hc
      obtain ⟨tokens, ht, h⟩ := decode_bind_ok h
      obtain ⟨j, hj, h⟩ := decode_bind_ok h
      obtain ⟨rfl, hh⟩ := kindOf_known h
      exact ⟨by simpa using hb, hh, op, size, tokens, hc, liftCheck_ok ht, hj⟩

/-- An instruction decoded under a bypass pattern that occurs in `%esp` does not name `esp`, unless such lines
are run. -/
theorem decodeLine_not_esp {p : Params} {tb : Tables} {line : Text} {i : Instr}
    (hp : containsText p.bypassPattern "%esp".toList = true) (hb : p.spacedEsp ≠ .run)
    (h : decodeLine p tb line = .ok (.known i)) : ∀ o ∈ operandsOf i, namesView .esp o = false := by
  have hp' : containsText p.bypassPattern ('%' :: viewName .esp) = true := hp
  have hh := (decodeLine_known h).2.1.resolve_left hb
  rw [namesBypassedEsp, hp', Bool.true_and, List.any_eq_false] at hh
  exact fun o ho => by simpa using hh o ho

/-! ### Text that occurs in a line -/

theorem containsText_iff {p t : Text} : containsText p t = true ↔ p <:+: t := by
  induction t with
  | nil => simp [containsText, List.isPrefixOf_iff_prefix]
  | cons c cs ih => rw [containsText, Bool.or_eq_true, ih, List.isPrefixOf_iff_prefix, List.infix_cons_iff]

theorem infix_joinTokens {tokens : List Text} {t : Text} (h : t ∈ tokens) : t <:+: joinTokens tokens := by
  induction tokens with
  | nil => cases h
  | cons a as ih =>
    cases as with
    | nil =>
      obtain rfl : t = a := by simpa using h
      exact List.infix_rfl
    | cons b bs =>
      rw [joinTokens]
      rcases List.mem_cons.1 h with rfl | h
      · exact (List.prefix_append _ _).isInfix
      · exact (ih h).trans ((List.suffix_cons _ _).trans (List.suffix_append _ _)).isInfix

/-! ### Which views an instruction's text names -/

theorem parseRegister_ok {t : Text} {v : View} (h : parseRegister t = .ok v) : t = registerText v := by
  unfold parseRegister at h
  split at h
  · cases h
  · rename_i c name
    split at h
    · rename_i hc
      split at h
      · rename_i w hw
        injection h with h; subst h
        have := List.find?_some hw
        simp only [decide_eq_true_eq] at this
        rw [hc, ← this, registerText]
      · cases h
    · cases h

theorem parseAddressRegister_text {t : Text} {v : View} (h : parseAddressRegister t = .ok v) : t = registerText v := by
  unfold parseAddressRegister at h
  split at h
  · rename_i w hw
    split at h
    · injection h with h; subst h; exact parseRegister_ok hw
    · cases h
  · cases h

/-- Each piece between commas stands in the text. -/
theorem infix_splitCommas {t part cur : Text} (h : part ∈ splitCommas cur t) : part <:+: cur.reverse ++ t := by
  induction t generalizing cur with
  | nil =>
    obtain rfl : part = cur.reverse := by simpa [splitCommas] using h
    simp
  | cons c cs ih =>
    rw [splitCommas] at h
    split at h
    · rcases List.mem_cons.1 h with rfl | h
      · exact (List.prefix_append _ _).isInfix
      · exact (ih h).trans ((List.suffix_cons c _).trans (List.suffix_append _ _)).isInfix
    · simpa using ih h

theorem parseAddress_parts {disp : Word} {parts : List Text} {m : MemRef} {v : View} (h : parseAddress disp parts = .ok m)
    (hv : m.base = some v ∨ m.index = some v) : registerText v ∈ parts := by
  unfold parseAddress at h
  split at h
  · obtain ⟨b, hb, h⟩ := decode_bind_ok h
    injection h with h; subst h
    rcases hv with hv | hv <;> cases hv
    simp [parseAddressRegister_text hb]
  · obtain ⟨b, hb, h⟩ := decode_bind_ok h
    obtain ⟨i, hi, h⟩ := decode_bind_ok h
    obtain ⟨s, -, h⟩ := decode_bind_ok h
    injection h with h; subst h
    rcases hv with hv | hv <;> cases hv
    · simp [parseAddressRegister_text hb]
    · simp [parseAddressRegister_text hi]
  · cases h

theorem parseMemory_infix {t : Text} {m : MemRef} {v : View} (h : parseMemory t = .ok m)
    (hv : m.base = some v ∨ m.index = some v) : registerText v <:+: t := by
  unfold parseMemory at h
  simp only at h
  split at h
  · obtain ⟨d, -, h⟩ := decode_bind_ok h
    exact (infix_splitCommas (parseAddress_parts h hv)).trans ((List.dropLast_prefix _).isInfix.trans
      ((List.drop_suffix _ _).trans (List.dropWhile_suffix _)).isInfix)
  · cases h

/-- An operand that names a view has the view's spelling in its token. -/
theorem parseOperand_infix {tb : Tables} {t : Text} {o : Operand} {v : View} (h : parseOperand tb t = .ok o)
    (hv : namesView v o = true) : registerText v <:+: t := by
  unfold parseOperand at h
  split at h
  · cases h
  · split at h
    · obtain ⟨w, hw, rfl⟩ := map_ok h
      obtain rfl : w = v := by simpa [namesView] using hv
      rw [parseRegister_ok hw]
    · split at h
      · obtain ⟨k, -, rfl⟩ := map_ok h; cases hv
      · split at h
        · obtain ⟨m, hm, rfl⟩ := map_ok h; exact parseMemory_infix hm (by simpa [namesView] using hv)
        · split at h
          · split at h
            · injection h with h; subst h; cases hv
            · cases h
          · cases h

/-- Where the operand tokens stand in the line as they are, an instruction is kept where the line does not show the pattern. -/
theorem kindOf_shown {p : Params} {line : Text} {tb : Tables} {op : Op} {size : Size} {tokens : List Text} {i : Instr}
    (hl : ∀ t ∈ tokens, t <:+: line) (h : decodeOperands tb op size tokens = .ok i)
    (hp : containsText p.bypassPattern line = false) : kindOf p i = .ok (.known i) := by
  rw [kindOf, if_neg]
  intro hh
  simp only [namesBypassedEsp, Bool.and_eq_true, List.any_eq_true] at hh
  obtain ⟨hc, o, ho, hv⟩ := hh
  obtain ⟨t, ht, hpo⟩ := (decodeOperands_ok h).1 o ho
  exact Bool.false_ne_true (hp ▸ containsText_iff.2
    ((containsText_iff.1 hc).trans ((parseOperand_infix hpo hv).trans (hl t ht))))

end Sys2Proof
end

