-- ==== Sys2Proof/Laws/State.lean ====
section
/-! SUPPORT. One lemma per field per update of the state, so that no later proof unfolds a record update. -/

namespace Sys2Proof.Machine

/-! ### clearFlags -/

@[simp] theorem clearFlags_params (s : State) : (clearFlags s).params = s.params := rfl
@[simp] theorem clearFlags_program (s : State) : (clearFlags s).program = s.program := rfl
@[simp] theorem clearFlags_cells (s : State) : (clearFlags s).cells = s.cells := rfl
@[simp] theorem clearFlags_flags (s : State) : (clearFlags s).flags = noFlags := rfl
@[simp] theorem clearFlags_pc (s : State) : (clearFlags s).pc = s.pc := rfl
@[simp] theorem clearFlags_mem (s : State) : (clearFlags s).mem = s.mem := rfl
@[simp] theorem clearFlags_status (s : State) : (clearFlags s).status = s.status := rfl
@[simp] theorem clearFlags_diags (s : State) : (clearFlags s).diags = s.diags := rfl
@[simp] theorem clearFlags_trace (s : State) : (clearFlags s).trace = s.trace := rfl

/-! ### setFlags -/

@[simp] theorem setFlags_params (s : State) (f : Flags) : (setFlags s f).params = s.params := rfl
@[simp] theorem setFlags_program (s : State) (f : Flags) : (setFlags s f).program = s.program := rfl
@[simp] theorem setFlags_cells (s : State) (f : Flags) : (setFlags s f).cells = s.cells := rfl
@[simp] theorem setFlags_flags (s : State) (f : Flags) : (setFlags s f).flags = f := rfl
@[simp] theorem setFlags_pc (s : State) (f : Flags) : (setFlags s f).pc = s.pc := rfl
@[simp] theorem setFlags_mem (s : State) (f : Flags) : (setFlags s f).mem = s.mem := rfl
@[simp] theorem setFlags_status (s : State) (f : Flags) : (setFlags s f).status = s.status := rfl
@[simp] theorem setFlags_diags (s : State) (f : Flags) : (setFlags s f).diags = s.diags := rfl
@[simp] theorem setFlags_trace (s : State) (f : Flags) : (setFlags s f).trace = s.trace := rfl

/-! ### advance -/

@[simp] theorem advance_params (s : State) : (advance s).params = s.params := rfl
@[simp] theorem advance_program (s : State) : (advance s).program = s.program := rfl
@[simp] theorem advance_cells (s : State) : (advance s).cells = s.cells := rfl
@[simp] theorem advance_flags (s : State) : (advance s).flags = s.flags := rfl
@[simp] theorem advance_pc (s : State) : (advance s).pc = s.pc + 1 := rfl
@[simp] theorem advance_mem (s : State) : (advance s).mem = s.mem := rfl
@[simp] theorem advance_status (s : State) : (advance s).status = s.status := rfl
@[simp] theorem advance_diags (s : State) : (advance s).diags = s.diags := rfl
@[simp] theorem advance_trace (s : State) : (advance s).trace = s.trace := rfl

/-! ### jumpTo -/

@[simp] theorem jumpTo_params (s : State) (t : Nat) : (jumpTo s t).params = s.params := rfl
@[simp] theorem jumpTo_program (s : State) (t : Nat) : (jumpTo s t).program = s.program := rfl
@[simp] theorem jumpTo_cells (s : State) (t : Nat) : (jumpTo s t).cells = s.cells := rfl
@[simp] theorem jumpTo_flags (s : State) (t : Nat) : (jumpTo s t).flags = s.flags := rfl
@[simp] theorem jumpTo_pc (s : State) (t : Nat) : (jumpTo s t).pc = t := rfl
@[simp] theorem jumpTo_mem (s : State) (t : Nat) : (jumpTo s t).mem = s.mem := rfl
@[simp] theorem jumpTo_status (s : State) (t : Nat) : (jumpTo s t).status = s.status := rfl
@[simp] theorem jumpTo_diags (s : State) (t : Nat) : (jumpTo s t).diags = s.diags := rfl
@[simp] theorem jumpTo_trace (s : State) (t : Nat) : (jumpTo s t).trace = s.trace := rfl

/-! ### setStackPointer -/

@[simp] theorem setStackPointer_params (s : State) (a : Word) : (setStackPointer s a).params = s.params := rfl
@[simp] theorem setStackPointer_program (s : State) (a : Word) : (setStackPointer s a).program = s.program := rfl
@[simp] theorem setStackPointer_cells (s : State) (a : Word) : (setStackPointer s a).cells = writeView s.cells .esp a := rfl
@[simp] theorem setStackPointer_flags (s : State) (a : Word) : (setStackPointer s a).flags = s.flags := rfl
@[simp] theorem setStackPointer_pc (s : State) (a : Word) : (setStackPointer s a).pc = s.pc := rfl
@[simp] theorem setStackPointer_mem (s : State) (a : Word) : (setStackPointer s a).mem = s.mem := rfl
@[simp] theorem setStackPointer_status (s : State) (a : Word) : (setStackPointer s a).status = s.status := rfl
@[simp] theorem setStackPointer_diags (s : State) (a : Word) : (setStackPointer s a).diags = s.diags := rfl
@[simp] theorem setStackPointer_trace (s : State) (a : Word) : (setStackPointer s a).trace = s.trace := rfl

/-! ### writePair -/

@[simp] theorem writePair_params (s : State) (size : Size) (lo hi : Word) : (writePair s size lo hi).params = s.params := rfl
@[simp] theorem writePair_program (s : State) (size : Size) (lo hi : Word) : (writePair s size lo hi).program = s.program := rfl
@[simp] theorem writePair_cells (s : State) (size : Size) (lo hi : Word) : (writePair s size lo hi).cells = writeView (writeView s.cells (pairLow size) lo) (pairHigh size) hi := rfl
@[simp] theorem writePair_flags (s : State) (size : Size) (lo hi : Word) : (writePair s size lo hi).flags = s.flags := rfl
@[simp] theorem writePair_pc (s : State) (size : Size) (lo hi : Word) : (writePair s size lo hi).pc = s.pc := rfl
@[simp] theorem writePair_mem (s : State) (size : Size) (lo hi : Word) : (writePair s size lo hi).mem = s.mem := rfl
@[simp] theorem writePair_status (s : State) (size : Size) (lo hi : Word) : (writePair s size lo hi).status = s.status := rfl
@[simp] theorem writePair_diags (s : State) (size : Size) (lo hi : Word) : (writePair s size lo hi).diags = s.diags := rfl
@[simp] theorem writePair_trace (s : State) (size : Size) (lo hi : Word) : (writePair s size lo hi).trace = s.trace := rfl

/-! ### enterFault -/

@[simp] theorem enterFault_params (s : State) (text : Text) (f : Fault) : (enterFault s text f).params = s.params := rfl
@[simp] theorem enterFault_program (s : State) (text : Text) (f : Fault) : (enterFault s text f).program = s.program := rfl
@[simp] theorem enterFault_cells (s : State) (text : Text) (f : Fault) : (enterFault s text f).cells = s.cells := rfl
@[simp] theorem enterFault_flags (s : State) (text : Text) (f : Fault) : (enterFault s text f).flags = s.flags := rfl
@[simp] theorem enterFault_pc (s : State) (text : Text) (f : Fault) : (enterFault s text f).pc = s.pc := rfl
@[simp] theorem enterFault_mem (s : State) (text : Text) (f : Fault) : (enterFault s text f).mem = s.mem := rfl
@[simp] theorem enterFault_status (s : State) (text : Text) (f : Fault) : (enterFault s text f).status = .faulted { fault := f, pc := s.pc, text := text } := rfl
@[simp] theorem enterFault_diags (s : State) (text : Text) (f : Fault) : (enterFault s text f).diags = s.diags := rfl
@[simp] theorem enterFault_trace (s : State) (text : Text) (f : Fault) : (enterFault s text f).trace = s.trace := rfl

/-! ### refuseLoad -/

@[simp] theorem refuseLoad_params (s : State) (e : LoadError) : (refuseLoad s e).params = s.params := rfl
@[simp] theorem refuseLoad_program (s : State) (e : LoadError) : (refuseLoad s e).program = s.program := rfl
@[simp] theorem refuseLoad_cells (s : State) (e : LoadError) : (refuseLoad s e).cells = s.cells := rfl
@[simp] theorem refuseLoad_flags (s : State) (e : LoadError) : (refuseLoad s e).flags = s.flags := rfl
@[simp] theorem refuseLoad_pc (s : State) (e : LoadError) : (refuseLoad s e).pc = s.pc := rfl
@[simp] theorem refuseLoad_mem (s : State) (e : LoadError) : (refuseLoad s e).mem = s.mem := rfl
@[simp] theorem refuseLoad_status (s : State) (e : LoadError) : (refuseLoad s e).status = .loadRefused e := rfl
@[simp] theorem refuseLoad_diags (s : State) (e : LoadError) : (refuseLoad s e).diags = s.diags := rfl
@[simp] theorem refuseLoad_trace (s : State) (e : LoadError) : (refuseLoad s e).trace = s.trace := rfl

/-! ### finishStep -/

@[simp] theorem finishStep_params (s : State) (e : TraceEvent) : (finishStep e s).params = s.params := rfl
@[simp] theorem finishStep_program (s : State) (e : TraceEvent) : (finishStep e s).program = s.program := rfl
@[simp] theorem finishStep_cells (s : State) (e : TraceEvent) : (finishStep e s).cells = s.cells := rfl
@[simp] theorem finishStep_flags (s : State) (e : TraceEvent) : (finishStep e s).flags = s.flags := rfl
@[simp] theorem finishStep_pc (s : State) (e : TraceEvent) : (finishStep e s).pc = s.pc := rfl
@[simp] theorem finishStep_mem (s : State) (e : TraceEvent) : (finishStep e s).mem = s.mem := rfl
@[simp] theorem finishStep_status (s : State) (e : TraceEvent) : (finishStep e s).status = if s.pc = s.program.code.length then .halted else s.status := rfl
@[simp] theorem finishStep_diags (s : State) (e : TraceEvent) : (finishStep e s).diags = s.diags := rfl
@[simp] theorem finishStep_trace (s : State) (e : TraceEvent) : (finishStep e s).trace = s.trace ++ [e] := rfl

/-! ### clearFor -/

@[simp] theorem clearFor_params (op : Op) (s : State) : (clearFor op s).params = s.params := by
  unfold clearFor; split <;> rfl

@[simp] theorem clearFor_program (op : Op) (s : State) : (clearFor op s).program = s.program := by
  unfold clearFor; split <;> rfl

@[simp] theorem clearFor_cells (op : Op) (s : State) : (clearFor op s).cells = s.cells := by
  unfold clearFor; split <;> rfl

theorem clearFor_flags (op : Op) (s : State) :
    (clearFor op s).flags = if s.params.flagClearSet.contains op then noFlags else s.flags := by
  unfold clearFor; split <;> rfl

@[simp] theorem clearFor_pc (op : Op) (s : State) : (clearFor op s).pc = s.pc := by
  unfold clearFor; split <;> rfl

@[simp] theorem clearFor_mem (op : Op) (s : State) : (clearFor op s).mem = s.mem := by
  unfold clearFor; split <;> rfl

@[simp] theorem clearFor_status (op : Op) (s : State) : (clearFor op s).status = s.status := by
  unfold clearFor; split <;> rfl

@[simp] theorem clearFor_diags (op : Op) (s : State) : (clearFor op s).diags = s.diags := by
  unfold clearFor; split <;> rfl

@[simp] theorem clearFor_trace (op : Op) (s : State) : (clearFor op s).trace = s.trace := by
  unfold clearFor; split <;> rfl

/-! ### Reset -/

@[simp] theorem resetWith_params (p : Params) : (State.resetWith p).params = p := rfl
@[simp] theorem resetWith_mem (p : Params) : (State.resetWith p).mem = [] := rfl
@[simp] theorem resetWith_flags (p : Params) : (State.resetWith p).flags = noFlags := rfl
@[simp] theorem resetWith_code (p : Params) : (State.resetWith p).program.code = [] := rfl
@[simp] theorem resetWith_pc (p : Params) : (State.resetWith p).pc = 0 := rfl

end Sys2Proof.Machine
end

