-- ==== Sys2Proof/Laws/Ops.lean ====
section
/-! SUPPORT. What the named operations over registers and memory do, once each. -/

namespace Sys2Proof.Machine

/-! ### Outcomes and binds -/

theorem outcomeOf_next {r : Except Fault State} {t : State} (h : outcomeOf r = .next t) : r = .ok t := by
  cases r <;> simp_all [outcomeOf]

theorem outcomeOf_fault {r : Except Fault State} {f : Fault} (h : outcomeOf r = .fault f) : r = .error f := by
  cases r <;> simp_all [outcomeOf]

theorem outcomeOf_not_refused (r : Except Fault State) (q : Refusal) : outcomeOf r ≠ .refused q := by
  cases r <;> simp [outcomeOf]

@[simp] theorem outcomeOf_ok (s : State) : outcomeOf (.ok s) = .next s := rfl

@[simp] theorem outcomeOf_error (f : Fault) : outcomeOf (.error f) = .fault f := rfl

@[simp] theorem ok_bind {ε α β : Type} (a : α) (g : α → Except ε β) : (Except.ok a >>= g) = g a := rfl

@[simp] theorem error_bind {ε α β : Type} (e : ε) (g : α → Except ε β) : (Except.error e >>= g) = .error e := rfl

/-- A bind succeeds only through a success of its first part. -/
theorem bind_eq_ok {ε α β : Type} {x : Except ε α} {g : α → Except ε β} {b : β} :
    (x >>= g) = .ok b ↔ ∃ a, x = .ok a ∧ g a = .ok b := by
  cases x <;> simp

/-! ### Cells -/

theorem getCell_setCell (c : Cells) (s s' : Slot) (w : Word) :
    getCell (setCell c s w) s' = if s' = s then w else getCell c s' := by
  cases s <;> cases s' <;> rfl

@[simp] theorem getCell_setCell_same (c : Cells) (s : Slot) (w : Word) : getCell (setCell c s w) s = w := by
  cases s <;> rfl

theorem getCell_setCell_other {s s' : Slot} (h : s' ≠ s) (c : Cells) (w : Word) :
    getCell (setCell c s w) s' = getCell c s' := by
  rw [getCell_setCell, if_neg h]

/-- Cells that agree in every slot are equal. -/
theorem cells_ext {c c' : Cells} (h : ∀ s, getCell c s = getCell c' s) : c = c' := by
  cases c; cases c'
  have ha := h .a; have hb := h .b; have hc := h .c; have hd := h .d
  have hsi := h .si; have hdi := h .di; have hsp := h .sp; have hbp := h .bp
  simp only [getCell] at ha hb hc hd hsi hdi hsp hbp
  simp [*]

/-! ### Views -/

theorem getLsbD_lowMask (k i : Nat) (hk : k ≤ 32) : (lowMask k).getLsbD i = decide (i < k) := by
  unfold lowMask
  rw [BitVec.getLsbD_ofNat, Nat.testBit_two_pow_sub_one]
  by_cases h : i < k
  · simp [h, Nat.lt_of_lt_of_le h hk]
  · simp [h]

theorem widthOf_le (v : View) : widthOf v + offsetOf v ≤ 32 := by cases v <;> decide

theorem widthOf_pos (v : View) : 0 < widthOf v := by cases v <;> decide

/-- R24, bit by bit. -/
theorem getLsbD_readView (c : Cells) (v : View) (i : Nat) :
    (readView c v).getLsbD i = (decide (i < widthOf v) && (getCell c (slotOf v)).getLsbD (offsetOf v + i)) := by
  have h := widthOf_le v
  rw [readView, BitVec.getLsbD_and, BitVec.getLsbD_ushiftRight, getLsbD_lowMask _ _ (by omega), Bool.and_comm]

/-- R25, bit by bit. -/
theorem getLsbD_mergeView (cell : Word) (v : View) (val : Word) (i : Nat) (hi : i < 32) :
    (mergeView cell v val).getLsbD i =
      if offsetOf v ≤ i ∧ i < offsetOf v + widthOf v then val.getLsbD (i - offsetOf v) else cell.getLsbD i := by
  have h := widthOf_le v
  simp only [mergeView, BitVec.getLsbD_or, BitVec.getLsbD_and, BitVec.getLsbD_not, BitVec.getLsbD_shiftLeft,
    getLsbD_lowMask _ _ (show widthOf v ≤ 32 by omega), hi, decide_true, Bool.true_and]
  by_cases h1 : i < offsetOf v
  · simp [h1, Nat.not_le.mpr h1]
  · by_cases h2 : i - offsetOf v < widthOf v
    · have : offsetOf v ≤ i ∧ i < offsetOf v + widthOf v := by omega
      simp [h1, h2, this]
    · have : ¬ (offsetOf v ≤ i ∧ i < offsetOf v + widthOf v) := by omega
      simp [h1, h2, this]

theorem getCell_writeView (c : Cells) (v : View) (val : Word) (s : Slot) :
    getCell (writeView c v val) s = if s = slotOf v then mergeView (getCell c (slotOf v)) v val else getCell c s :=
  getCell_setCell _ _ _ _

theorem getCell_writeView_other {v : View} {s : Slot} (h : s ≠ slotOf v) (c : Cells) (val : Word) :
    getCell (writeView c v val) s = getCell c s := by
  rw [getCell_writeView, if_neg h]

theorem readView_toNat_lt (c : Cells) (v : View) : (readView c v).toNat < 2 ^ widthOf v := by
  have h := widthOf_le v
  rw [readView, BitVec.toNat_and, lowMask, BitVec.toNat_ofNat]
  have h2 : (2 ^ widthOf v - 1) % 2 ^ 32 = 2 ^ widthOf v - 1 := by
    apply Nat.mod_eq_of_lt
    have := Nat.pow_le_pow_right (show 0 < 2 by omega) (show widthOf v ≤ 32 by omega)
    have := Nat.two_pow_pos (widthOf v)
    omega
  rw [h2]
  have := Nat.two_pow_pos (widthOf v)
  exact Nat.lt_of_le_of_lt Nat.and_le_right (by omega)

/-- What was written to a view is read back, truncated to its width. -/
theorem readView_writeView_same (c : Cells) (v : View) (val : Word) :
    readView (writeView c v val) v = val &&& lowMask (widthOf v) := by
  have h := widthOf_le v
  apply BitVec.eq_of_getLsbD_eq
  intro i hi
  rw [getLsbD_readView, getCell_writeView, if_pos rfl, BitVec.getLsbD_and, getLsbD_lowMask _ _ (by omega)]
  by_cases hw : i < widthOf v
  · rw [getLsbD_mergeView _ _ _ _ (by omega)]
    simp [hw]
  · simp [hw]

/-- A view in another slot reads as before. -/
theorem readView_writeView_other {v v' : View} (h : slotOf v' ≠ slotOf v) (c : Cells) (val : Word) :
    readView (writeView c v val) v' = readView c v' := by
  simp only [readView, getCell_writeView_other h]

theorem and_lowMask_32 (w : Word) : w &&& lowMask 32 = w := by
  have : lowMask 32 = BitVec.allOnes 32 := by decide
  rw [this, BitVec.and_allOnes]

/-- A full-width view reads its cell. -/
theorem readView_full {v : View} (h : widthOf v = 32) (c : Cells) : readView c v = getCell c (slotOf v) := by
  have : offsetOf v = 0 := by have := widthOf_le v; omega
  simp only [readView, h, this, and_lowMask_32, BitVec.ushiftRight_zero]

/-- A full-width view writes its cell. -/
theorem writeView_full {v : View} (h : widthOf v = 32) (c : Cells) (val : Word) :
    writeView c v val = setCell c (slotOf v) val := by
  have : offsetOf v = 0 := by have := widthOf_le v; omega
  have hz : ∀ w : Word, w &&& ~~~ lowMask 32 = 0#32 := by
    intro w
    have : lowMask 32 = BitVec.allOnes 32 := by decide
    rw [this]; simp
  simp [writeView, mergeView, h, this, and_lowMask_32, hz]

@[simp] theorem stackPointer_eq (s : State) : stackPointer s = s.cells.sp := readView_full (v := .esp) rfl _

@[simp] theorem writeView_esp (c : Cells) (a : Word) : writeView c .esp a = { c with sp := a } := writeView_full rfl _ _

/-! ### Bytes -/

theorem readByte_eq_zero_of_wfFrom {m : Memory} {lo x : Nat} (h : wfFrom lo m = true) (hx : x < lo) : readByte m x = 0#8 := by
  induction m generalizing lo with
  | nil => rfl
  | cons c rest ih =>
    obtain ⟨y, b⟩ := c
    simp only [wfFrom, Bool.and_eq_true, decide_eq_true_eq] at h
    have : y ≠ x := by omega
    simp only [readByte, this, if_false]
    exact ih h.2 (by omega)

theorem wfFrom_mono {m : Memory} {lo lo' : Nat} (h : wfFrom lo m = true) (hl : lo' ≤ lo) : wfFrom lo' m = true := by
  cases m with
  | nil => rfl
  | cons c rest =>
    obtain ⟨y, b⟩ := c
    simp only [wfFrom, Bool.and_eq_true, decide_eq_true_eq] at h ⊢
    exact ⟨⟨by omega, h.1.2⟩, h.2⟩

theorem wfFrom_writeByte {m : Memory} {lo : Nat} (h : wfFrom lo m = true) (a : Nat) (v : Byte) (ha : lo ≤ a) :
    wfFrom lo (writeByte m a v) = true := by
  induction m generalizing lo with
  | nil => by_cases hv : v = 0#8 <;> simp [writeByte, hv, wfFrom, ha]
  | cons c rest ih =>
    obtain ⟨y, b⟩ := c
    simp only [wfFrom, Bool.and_eq_true, decide_eq_true_eq] at h
    obtain ⟨⟨h1, h2⟩, h3⟩ := h
    simp only [writeByte]
    split
    · split
      · simp [wfFrom, h1, h2, h3]
      · rename_i hlt hv
        simp only [wfFrom, Bool.and_eq_true, decide_eq_true_eq]
        exact ⟨⟨ha, hv⟩, ⟨by omega, h2⟩, h3⟩
    · split
      · split
        · exact wfFrom_mono h3 (by omega)
        · rename_i _ heq hv
          simp only [wfFrom, Bool.and_eq_true, decide_eq_true_eq]
          exact ⟨⟨ha, hv⟩, heq ▸ h3⟩
      · simp only [wfFrom, Bool.and_eq_true, decide_eq_true_eq]
        exact ⟨⟨h1, h2⟩, ih h3 (by omega)⟩

/-- A byte write keeps the canonical form. -/
theorem wf_writeByte {m : Memory} (h : Memory.wf m = true) (a : Nat) (v : Byte) : Memory.wf (writeByte m a v) = true :=
  wfFrom_writeByte h a v (Nat.zero_le _)

theorem readByte_writeByte_from {m : Memory} {lo : Nat} (h : wfFrom lo m = true) (a : Nat) (v : Byte) (x : Nat) :
    readByte (writeByte m a v) x = if x = a then v else readByte m x := by
  induction m generalizing lo with
  | nil => by_cases hv : v = 0#8 <;> by_cases hx : x = a <;> simp [writeByte, hv, readByte, hx, eq_comm (a := a)]
  | cons c rest ih =>
    obtain ⟨y, b⟩ := c
    simp only [wfFrom, Bool.and_eq_true, decide_eq_true_eq] at h
    obtain ⟨⟨h1, h2⟩, h3⟩ := h
    have hz : ∀ x, x ≤ y → readByte rest x = 0#8 := fun x hx => readByte_eq_zero_of_wfFrom h3 (by omega)
    simp only [writeByte]
    split
    · rename_i hlt
      split
      · rename_i hv
        by_cases hx : x = a
        · have : y ≠ a := by omega
          simp [readByte, hx, this, hz a (by omega), hv]
        · simp [hx]
      · by_cases hx : x = a
        · simp [readByte, hx]
        · simp [readByte, hx, eq_comm (a := a)]
    · rename_i hge
      split
      · rename_i heq
        subst heq
        split
        · rename_i hv
          by_cases hx : x = a
          · simp [hx, hz a (Nat.le_refl _), hv]
          · simp [readByte, hx, eq_comm (a := a)]
        · by_cases hx : x = a <;> simp [readByte, hx, eq_comm (a := a)]
      · rename_i hne
        by_cases hx : x = y
        · subst hx
          simp [readByte, eq_comm (b := a), hne]
        · simp [readByte, eq_comm (a := y), hx, ih h3]

/-- A byte written is read back, and every other byte reads as before. -/
theorem readByte_writeByte {m : Memory} (h : Memory.wf m = true) (a : Nat) (v : Byte) (x : Nat) :
    readByte (writeByte m a v) x = if x = a then v else readByte m x :=
  readByte_writeByte_from h a v x

/-- The canonical form is canonical: memories that read alike are equal. -/
theorem wfFrom_ext {m m' : Memory} {lo lo' : Nat} (h : wfFrom lo m = true) (h' : wfFrom lo' m' = true)
    (hr : ∀ x, readByte m x = readByte m' x) : m = m' := by
  induction m generalizing lo lo' m' with
  | nil =>
    cases m' with
    | nil => rfl
    | cons c rest =>
      obtain ⟨y, b⟩ := c
      simp only [wfFrom, Bool.and_eq_true, decide_eq_true_eq] at h'
      have := hr y
      simp only [readByte, if_true] at this
      exact absurd this.symm h'.1.2
  | cons c rest ih =>
    obtain ⟨y, b⟩ := c
    simp only [wfFrom, Bool.and_eq_true, decide_eq_true_eq] at h
    cases m' with
    | nil =>
      have := hr y
      simp only [readByte, if_true] at this
      exact absurd this h.1.2
    | cons c' rest' =>
      obtain ⟨y', b'⟩ := c'
      simp only [wfFrom, Bool.and_eq_true, decide_eq_true_eq] at h'
      have hz : ∀ x, x ≤ y → readByte rest x = 0#8 := fun x hx => readByte_eq_zero_of_wfFrom h.2 (by omega)
      have hz' : ∀ x, x ≤ y' → readByte rest' x = 0#8 := fun x hx => readByte_eq_zero_of_wfFrom h'.2 (by omega)
      have hyy : y = y' := by
        rcases Nat.lt_trichotomy y y' with hlt | heq | hgt
        · have := hr y
          have h1 : y' ≠ y := by omega
          simp only [readByte, if_true, h1, if_false, hz' y (by omega)] at this
          exact absurd this h.1.2
        · exact heq
        · have := hr y'
          have h1 : y ≠ y' := by omega
          simp only [readByte, if_true, h1, if_false, hz y' (by omega)] at this
          exact absurd this.symm h'.1.2
      subst hyy
      have hb : b = b' := by have := hr y; simpa [readByte] using this
      subst hb
      have : rest = rest' := by
        refine ih h.2 h'.2 fun x => ?_
        by_cases hx : x ≤ y
        · rw [hz x hx, hz' x hx]
        · have h1 : y ≠ x := by omega
          have := hr x
          simpa only [readByte, h1, if_false] using this
      rw [this]

theorem memory_ext {m m' : Memory} (h : Memory.wf m = true) (h' : Memory.wf m' = true)
    (hr : ∀ x, readByte m x = readByte m' x) : m = m' := wfFrom_ext h h' hr

theorem memBelow_writeByte {m : Memory} {cap : Nat} (h : memBelow cap m = true) (a : Nat) (v : Byte) (ha : a < cap) :
    memBelow cap (writeByte m a v) = true := by
  induction m with
  | nil => by_cases hv : v = 0#8 <;> simp [writeByte, hv, memBelow, ha]
  | cons c rest ih =>
    obtain ⟨y, b⟩ := c
    simp only [memBelow, List.all_cons, Bool.and_eq_true, decide_eq_true_eq] at h
    have hi := ih (by simpa [memBelow] using h.2)
    simp only [memBelow, List.all_eq_true, decide_eq_true_eq] at hi h
    simp only [writeByte]
    split
    · split <;> simp [memBelow, h.1, ha] <;> exact fun a b hab => h.2 _ hab
    · split
      · split <;> simp [memBelow, ha] <;> exact fun a b hab => h.2 _ hab
      · simp [memBelow, h.1]
        exact fun a b hab => hi _ hab

/-! ### Wider accesses -/

theorem wf_writeLE {m : Memory} (h : Memory.wf m = true) (a n : Nat) (v : Word) : Memory.wf (writeLE m a n v) = true := by
  induction n generalizing m a v with
  | zero => exact h
  | succ n ih => exact ih (wf_writeByte h _ _) _ _

theorem memBelow_writeLE {m : Memory} {cap : Nat} (h : memBelow cap m = true) (a n : Nat) (v : Word) (ha : a + n ≤ cap) :
    memBelow cap (writeLE m a n v) = true := by
  induction n generalizing m a v with
  | zero => exact h
  | succ n ih => exact ih (memBelow_writeByte h _ _ (by omega)) _ _ (by omega)

/-- R52, byte by byte. -/
theorem readByte_writeLE {m : Memory} (h : Memory.wf m = true) (a n : Nat) (v : Word) (x : Nat) :
    readByte (writeLE m a n v) x = if a ≤ x ∧ x < a + n then (v >>> (8 * (x - a))).setWidth 8 else readByte m x := by
  induction n generalizing m a v with
  | zero => simp only [writeLE]; rw [if_neg (by omega)]
  | succ n ih =>
    rw [writeLE, ih (wf_writeByte h _ _), readByte_writeByte h]
    by_cases hx : x = a
    · subst hx
      rw [if_neg (by omega), if_pos rfl, if_pos (by omega)]
      simp
    · rw [if_neg hx]
      by_cases hr : a + 1 ≤ x ∧ x < a + 1 + n
      · rw [if_pos hr, if_pos (by omega), ← BitVec.shiftRight_add]
        congr 2
        omega
      · rw [if_neg hr, if_neg (by omega)]

theorem readLE_lt (m : Memory) (a n : Nat) : readLE m a n < 256 ^ n := by
  induction n generalizing a with
  | zero => simp [readLE]
  | succ n ih =>
    have h1 := ih (a + 1)
    have h2 := (readByte m a).isLt
    simp only [readLE, Nat.pow_succ]
    omega

/-- What a memory write does when it answers: it was in bounds, and only memory changed (R52, R53). -/
theorem memWrite_ok {s t : State} {addr : Word} {n : Nat} {v : Word} (h : memWrite s addr n v = .ok t) :
    addr.toNat + n ≤ s.params.capacity ∧ t = { s with mem := writeLE s.mem addr.toNat n v } := by
  unfold memWrite inBounds at h
  split at h
  · rename_i hb
    exact ⟨by simpa using hb, by simpa using h.symm⟩
  · cases h

theorem memWrite_inBounds {s : State} {addr : Word} {n : Nat} (v : Word) (h : addr.toNat + n ≤ s.params.capacity) :
    memWrite s addr n v = .ok { s with mem := writeLE s.mem addr.toNat n v } := by
  simp [memWrite, inBounds, h]

theorem memWrite_outOfBounds {s : State} {addr : Word} {n : Nat} (v : Word) (h : ¬ addr.toNat + n ≤ s.params.capacity) :
    memWrite s addr n v = .error (.outOfBounds addr n) := by
  simp [memWrite, inBounds, h]

theorem memRead_ok {s : State} {addr : Word} {n : Nat} {v : Word} (h : memRead s addr n = .ok v) :
    addr.toNat + n ≤ s.params.capacity ∧ v = BitVec.ofNat 32 (readLE s.mem addr.toNat n) := by
  unfold memRead inBounds at h
  split at h
  · rename_i hb
    exact ⟨by simpa using hb, by simpa using h.symm⟩
  · cases h

theorem memRead_inBounds {s : State} {addr : Word} {n : Nat} (h : addr.toNat + n ≤ s.params.capacity) :
    memRead s addr n = .ok (BitVec.ofNat 32 (readLE s.mem addr.toNat n)) := by
  simp [memRead, inBounds, h]

theorem memRead_outOfBounds {s : State} {addr : Word} {n : Nat} (h : ¬ addr.toNat + n ≤ s.params.capacity) :
    memRead s addr n = .error (.outOfBounds addr n) := by
  simp [memRead, inBounds, h]

/-! ### Images (R222) -/

theorem wfFrom_imageCells (bs : List Byte) (lo a : Nat) (h : lo ≤ a) : wfFrom lo (imageCells a bs) = true := by
  induction bs generalizing lo a with
  | nil => rfl
  | cons b bs ih =>
    simp only [imageCells]
    split
    · exact ih lo (a + 1) (by omega)
    · rename_i hb
      simp only [wfFrom, Bool.and_eq_true, decide_eq_true_eq]
      exact ⟨⟨h, hb⟩, ih (a + 1) (a + 1) (Nat.le_refl _)⟩

theorem memBelow_imageCells (bs : List Byte) (a cap : Nat) (h : a + bs.length ≤ cap) :
    memBelow cap (imageCells a bs) = true := by
  induction bs generalizing a with
  | nil => rfl
  | cons b bs ih =>
    simp only [List.length_cons] at h
    have hi := ih (a + 1) (by omega)
    simp only [imageCells]
    split
    · exact hi
    · simp only [memBelow, List.all_cons, Bool.and_eq_true, decide_eq_true_eq] at hi ⊢
      exact ⟨by omega, hi⟩

theorem readByte_imageCells (bs : List Byte) (a x : Nat) :
    readByte (imageCells a bs) x = if a ≤ x then bs.getD (x - a) 0#8 else 0#8 := by
  induction bs generalizing a with
  | nil => simp [imageCells, readByte]
  | cons b bs ih =>
    have key : readByte (imageCells a (b :: bs)) x = if a = x then b else readByte (imageCells (a + 1) bs) x := by
      simp only [imageCells]
      split
      · rename_i hb
        by_cases hx : a = x
        · rw [if_pos hx, hb, ih, if_neg (by omega)]
        · rw [if_neg hx]
      · rfl
    rw [key, ih]
    by_cases hx : a = x
    · subst hx; simp
    · rw [if_neg hx]
      by_cases hle : a ≤ x
      · rw [if_pos (by omega), if_pos hle]
        obtain ⟨k, rfl⟩ : ∃ k, x = a + 1 + k := ⟨x - (a + 1), by omega⟩
        simp [show a + 1 + k - a = k + 1 by omega]
      · rw [if_neg (by omega), if_neg hle]

end Sys2Proof.Machine
end

