-- ==== Sys2Proof/Laws/Operands.lean ====
section
/-! SUPPORT. The operand resolver in the terms of the claims: what a read gives and what a write leaves, or the fault. -/

namespace Sys2Proof.Machine

/-! ### Views by R23's table -/

/-- R24 by the table. -/
theorem readView_eq_viewValue (c : Cells) (v : View) : readView c v = viewValue c v := by
  apply BitVec.eq_of_getLsbD_eq
  intro i hi
  rw [getLsbD_readView]
  cases v <;>
    simp only [viewValue, widthOf, offsetOf, slotOf, getCell, BitVec.getLsbD_setWidth, BitVec.getLsbD_extractLsb', hi,
      decide_true, Bool.true_and, Nat.zero_add] <;> rfl

theorem getLsbD_withLow16 (cell v : Word) (i : Nat) :
    (withLow16 cell v).getLsbD i = if i < 16 then v.getLsbD i else cell.getLsbD i := by
  simp only [withLow16, BitVec.getLsbD_append, BitVec.getLsbD_extractLsb']
  by_cases h : i < 16
  · simp [h]
  · by_cases h2 : i < 32
    · simp [h, show 16 + (i - 16) = i by omega, show i - 16 < 16 by omega]
    · simp [h, show 16 + (i - 16) = i by omega, BitVec.getLsbD_of_ge cell i (by omega)]

theorem getLsbD_withHigh8 (cell v : Word) (i : Nat) :
    (withHigh8 cell v).getLsbD i = if 8 ≤ i ∧ i < 16 then v.getLsbD (i - 8) else cell.getLsbD i := by
  simp only [withHigh8, BitVec.getLsbD_append, BitVec.getLsbD_extractLsb']
  by_cases h : i < 8
  · simp [h, Nat.not_le.mpr h]
  · by_cases h2 : i < 16
    · simp [h, h2, show 8 ≤ i by omega, show i - 8 < 8 by omega]
    · by_cases h3 : i < 32
      · simp [h, h2, show ¬ i - 8 < 8 by omega, show i - 8 - 8 < 16 by omega, show 16 + (i - 8 - 8) = i by omega]
      · simp [h, h2, show ¬ i - 8 < 8 by omega, show 16 + (i - 8 - 8) = i by omega,
          BitVec.getLsbD_of_ge cell i (by omega)]

theorem getLsbD_withLow8 (cell v : Word) (i : Nat) :
    (withLow8 cell v).getLsbD i = if i < 8 then v.getLsbD i else cell.getLsbD i := by
  simp only [withLow8, BitVec.getLsbD_append, BitVec.getLsbD_extractLsb']
  by_cases h : i < 8
  · simp [h]
  · by_cases h2 : i < 32
    · simp [h, show 8 + (i - 8) = i by omega, show i - 8 < 24 by omega]
    · simp [h, show 8 + (i - 8) = i by omega, BitVec.getLsbD_of_ge cell i (by omega)]

theorem mergeView_low16 {v : View} (hw : widthOf v = 16) (ho : offsetOf v = 0) (cell val : Word) :
    mergeView cell v val = withLow16 cell val := by
  apply BitVec.eq_of_getLsbD_eq
  intro i hi
  rw [getLsbD_mergeView _ _ _ _ hi, getLsbD_withLow16, hw, ho]
  simp

theorem mergeView_high8 {v : View} (hw : widthOf v = 8) (ho : offsetOf v = 8) (cell val : Word) :
    mergeView cell v val = withHigh8 cell val := by
  apply BitVec.eq_of_getLsbD_eq
  intro i hi
  rw [getLsbD_mergeView _ _ _ _ hi, getLsbD_withHigh8, hw, ho]

theorem mergeView_low8 {v : View} (hw : widthOf v = 8) (ho : offsetOf v = 0) (cell val : Word) :
    mergeView cell v val = withLow8 cell val := by
  apply BitVec.eq_of_getLsbD_eq
  intro i hi
  rw [getLsbD_mergeView _ _ _ _ hi, getLsbD_withLow8, hw, ho]
  simp

/-- R25 by the table. -/
theorem writeView_eq_viewStored (c : Cells) (v : View) (val : Word) : writeView c v val = viewStored c v val := by
  cases v <;>
    first
    | exact writeView_full rfl _ _
    | simp only [writeView, slotOf, getCell, setCell, viewStored, mergeView_low16 (v := .ax) rfl rfl,
        mergeView_low16 (v := .bx) rfl rfl, mergeView_low16 (v := .cx) rfl rfl, mergeView_low16 (v := .dx) rfl rfl,
        mergeView_high8 (v := .ah) rfl rfl, mergeView_high8 (v := .bh) rfl rfl, mergeView_high8 (v := .ch) rfl rfl,
        mergeView_high8 (v := .dh) rfl rfl, mergeView_low8 (v := .al) rfl rfl, mergeView_low8 (v := .bl) rfl rfl,
        mergeView_low8 (v := .cl) rfl rfl, mergeView_low8 (v := .dl) rfl rfl]

/-! ### Memory values -/

theorem toNat_append_bytes {n : Nat} (hi : BitVec n) (lo : Byte) : (hi ++ lo).toNat = hi.toNat * 256 + lo.toNat := by
  rw [BitVec.toNat_append, ← Nat.shiftLeft_add_eq_or_of_lt lo.isLt, Nat.shiftLeft_eq]

theorem readLE_two (m : Memory) (a : Nat) : readLE m a 2 = (readByte m (a + 1) ++ readByte m a).toNat := by
  rw [toNat_append_bytes]
  simp only [readLE]
  omega

theorem readLE_four (m : Memory) (a : Nat) : readLE m a 4 = (dwordAt m a).toNat := by
  simp only [dwordAt, toNat_append_bytes, readLE, show a + 1 + 1 = a + 2 from rfl, show a + 2 + 1 = a + 3 from rfl]
  omega

/-- R51 and R108: a sized read, extended, is the signed number its bytes write. -/
theorem extendRead_readLE (m : Memory) (size : Size) (a : Nat) :
    extendRead size (BitVec.ofNat 32 (readLE m a (bytesOf size))) = memValue m size a := by
  cases size with
  | b =>
    have : (BitVec.ofNat 32 (readLE m a 1)).setWidth 8 = readByte m a := by
      apply BitVec.eq_of_toNat_eq
      have := (readByte m a).isLt
      simp only [readLE, BitVec.toNat_setWidth, BitVec.toNat_ofNat]
      omega
    simp only [extendRead, bytesOf, memValue, this, BitVec.signExtend]
  | w =>
    have : (BitVec.ofNat 32 (readLE m a 2)).setWidth 16 = readByte m (a + 1) ++ readByte m a := by
      apply BitVec.eq_of_toNat_eq
      have := (readByte m (a + 1) ++ readByte m a).isLt
      rw [readLE_two, BitVec.toNat_setWidth, BitVec.toNat_ofNat]
      omega
    simp only [extendRead, bytesOf, memValue, this, BitVec.signExtend]
  | l =>
    simp only [extendRead, bytesOf, memValue, readLE_four, BitVec.ofNat_toNat]
    exact BitVec.setWidth_eq _

theorem setWidth8_shift (v : Word) (k : Nat) : (v >>> k).setWidth 8 = v.extractLsb' k 8 := by
  apply BitVec.eq_of_getLsbD_eq
  intro i hi
  simp [hi]

/-- R52 at each declared size. -/
theorem writeLE_eq_memStored (m : Memory) (size : Size) (a : Nat) (v : Word) :
    writeLE m a (bytesOf size) v = memStored m size a v := by
  have h0 : v.setWidth 8 = v.extractLsb' 0 8 := by simpa using setWidth8_shift v 0
  have h1 := setWidth8_shift v 8
  have h2 : (v >>> 8 >>> 8).setWidth 8 = v.extractLsb' 16 8 := by
    rw [← BitVec.shiftRight_add]; exact setWidth8_shift v 16
  have h3 : (v >>> 8 >>> 8 >>> 8).setWidth 8 = v.extractLsb' 24 8 := by
    rw [← BitVec.shiftRight_add, ← BitVec.shiftRight_add]; exact setWidth8_shift v 24
  cases size <;> simp only [bytesOf, writeLE, memStored, dwordStored, h0, h1, h2, h3]

theorem writeLE_four (m : Memory) (a : Nat) (v : Word) : writeLE m a 4 v = dwordStored m a v :=
  writeLE_eq_memStored m .l a v

/-! ### Operands -/

@[simp] theorem readable_mem (s : State) (size : Size) (m : MemRef) :
    Readable s size (.mem m) ↔ Accessible s size m := Iff.rfl

@[simp] theorem readable_reg (s : State) (size : Size) (v : View) : Readable s size (.reg v) := trivial

@[simp] theorem readable_imm (s : State) (size : Size) (k : Word) : Readable s size (.imm k) := trivial

@[simp] theorem writable_mem (s : State) (size : Size) (m : MemRef) :
    Writable s size (.mem m) ↔ Accessible s size m := Iff.rfl

@[simp] theorem writable_reg (s : State) (size : Size) (v : View) : Writable s size (.reg v) := trivial

theorem readOp_readable {s : State} {size : Size} {o : Operand} (h : Readable s size o) :
    readOp s size o = .ok (operandValue s size o) := by
  cases o with
  | reg v => simp only [readOp, operandValue, readView_eq_viewValue]
  | imm k => rfl
  | mem m => simp only [readOp, readMem, memRead_inBounds h, ok_bind, extendRead_readLE, operandValue, addressOf]

theorem readOp_unreadable {s : State} {size : Size} {m : MemRef} (h : ¬ Accessible s size m) :
    readOp s size (.mem m) = .error (accessFault s size m) := by
  simp only [readOp, readMem, memRead_outOfBounds h, error_bind, accessFault]

/-- What an operand read gives, or the fault it raises (R108, R53). -/
theorem readOp_cases (s : State) (size : Size) (o : Operand) :
    (Readable s size o ∧ readOp s size o = .ok (operandValue s size o)) ∨
    (∃ m, o = .mem m ∧ ¬ Accessible s size m ∧ readOp s size o = .error (accessFault s size m)) := by
  by_cases h : Readable s size o
  · exact .inl ⟨h, readOp_readable h⟩
  · cases o with
    | reg v => exact absurd trivial h
    | imm k => exact absurd trivial h
    | mem m => exact .inr ⟨m, rfl, h, readOp_unreadable h⟩

theorem writeOp_writable {s : State} {size : Size} {d : Dest} (v : Word) (h : Writable s size d) :
    writeOp s size d v = .ok (destStored s size d v) := by
  cases d with
  | reg view => simp only [writeOp, destStored, writeView_eq_viewStored]
  | mem m => simp only [writeOp, memWrite_inBounds v h, writeLE_eq_memStored, destStored, addressOf]

theorem writeOp_unwritable {s : State} {size : Size} {m : MemRef} (v : Word) (h : ¬ Accessible s size m) :
    writeOp s size (.mem m) v = .error (accessFault s size m) := by
  simp only [writeOp, memWrite_outOfBounds v h, accessFault]

/-- What an operand write leaves, or the fault it raises (R109, R53). -/
theorem writeOp_cases (s : State) (size : Size) (d : Dest) (v : Word) :
    (Writable s size d ∧ writeOp s size d v = .ok (destStored s size d v)) ∨
    (∃ m, d = .mem m ∧ ¬ Accessible s size m ∧ writeOp s size d v = .error (accessFault s size m)) := by
  by_cases h : Writable s size d
  · exact .inl ⟨h, writeOp_writable v h⟩
  · cases d with
    | reg view => exact absurd trivial h
    | mem m => exact .inr ⟨m, rfl, h, writeOp_unwritable v h⟩

/-- What an operand write does when it answers. -/
theorem writeOp_ok {s t : State} {size : Size} {d : Dest} {v : Word} (h : writeOp s size d v = .ok t) :
    Writable s size d ∧ t = destStored s size d v := by
  rcases writeOp_cases s size d v with ⟨hw, hr⟩ | ⟨m, -, -, hr⟩
  · rw [hr] at h; exact ⟨hw, by simpa using h.symm⟩
  · rw [hr] at h; cases h

theorem readable_destOperand (s : State) (size : Size) (d : Dest) :
    Readable s size (destOperand d) ↔ Writable s size d := by cases d <;> rfl

/-! ### A flag clear changes no operand -/

@[simp] theorem accessible_clearFlags (s : State) (size : Size) (m : MemRef) :
    Accessible (clearFlags s) size m ↔ Accessible s size m := Iff.rfl

@[simp] theorem accessible_clearFor (op : Op) (s : State) (size : Size) (m : MemRef) :
    Accessible (clearFor op s) size m ↔ Accessible s size m := by
  simp only [Accessible, addressOf, clearFor_cells, clearFor_params]

@[simp] theorem accessFault_clearFor (op : Op) (s : State) (size : Size) (m : MemRef) :
    accessFault (clearFor op s) size m = accessFault s size m := by
  simp only [accessFault, clearFor_cells]

@[simp] theorem readable_clearFor (op : Op) (s : State) (size : Size) (o : Operand) :
    Readable (clearFor op s) size o ↔ Readable s size o := by
  cases o <;> simp [Readable]

@[simp] theorem writable_clearFor (op : Op) (s : State) (size : Size) (d : Dest) :
    Writable (clearFor op s) size d ↔ Writable s size d := by
  cases d <;> simp [Writable]

@[simp] theorem operandValue_clearFor (op : Op) (s : State) (size : Size) (o : Operand) :
    operandValue (clearFor op s) size o = operandValue s size o := by
  cases o <;> simp [operandValue, addressOf]

@[simp] theorem operandValue_clearFlags (s : State) (size : Size) (o : Operand) :
    operandValue (clearFlags s) size o = operandValue s size o := by
  cases o <;> rfl

@[simp] theorem readable_clearFlags (s : State) (size : Size) (o : Operand) :
    Readable (clearFlags s) size o ↔ Readable s size o := by
  cases o <;> exact Iff.rfl

@[simp] theorem writable_clearFlags (s : State) (size : Size) (d : Dest) :
    Writable (clearFlags s) size d ↔ Writable s size d := by
  cases d <;> exact Iff.rfl

theorem clearFor_flags_eq (op : Op) (s : State) : (clearFor op s).flags = flagsAfter op s := by
  rw [clearFor_flags, flagsAfter, noFlags]
  simp only [List.contains_iff_mem]

/-- A write after the flag clear, and the advance. -/
theorem advance_destStored_clearFor (op : Op) (s : State) (size : Size) (d : Dest) (v : Word) :
    advance (destStored (clearFor op s) size d v) = dataDone op s size d v := by
  cases d <;> simp only [destStored, advance, dataDone, addressOf, clearFor_cells, clearFor_mem, clearFor_flags_eq,
    clearFor_pc, clearFor_params, clearFor_program, clearFor_status, clearFor_diags, clearFor_trace]

/-! ### What a write leaves alone (R25, R27, R52) -/

theorem destStored_sameElse (s : State) (size : Size) (d : Dest) (v : Word) : SameElse s (destStored s size d v) := by
  cases d <;> exact ⟨rfl, rfl, rfl, rfl, rfl⟩

theorem readByte_memStored {m : Memory} (h : Memory.wf m = true) (size : Size) (a : Nat) (v : Word) (x : Nat) :
    readByte (memStored m size a v) x =
      if a ≤ x ∧ x < a + bytesOf size then (v >>> (8 * (x - a))).setWidth 8 else readByte m x := by
  rw [← writeLE_eq_memStored, readByte_writeLE h]

theorem sameOutside_memStored {m : Memory} (h : Memory.wf m = true) (size : Size) (a : Nat) (v : Word) :
    SameOutside m (memStored m size a v) a (bytesOf size) := by
  intro x hx
  rw [readByte_memStored h, if_neg (by omega)]

theorem wf_memStored {m : Memory} (h : Memory.wf m = true) (size : Size) (a : Nat) (v : Word) :
    Memory.wf (memStored m size a v) = true := by
  rw [← writeLE_eq_memStored]; exact wf_writeLE h _ _ _

theorem memBelow_memStored {m : Memory} {cap : Nat} (h : memBelow cap m = true) (size : Size) (a : Nat) (v : Word)
    (ha : a + bytesOf size ≤ cap) : memBelow cap (memStored m size a v) = true := by
  rw [← writeLE_eq_memStored]; exact memBelow_writeLE h _ _ _ ha

theorem getCell_viewStored_other {v : View} {s : Slot} (h : s ≠ slotOf v) (c : Cells) (val : Word) :
    getCell (viewStored c v val) s = getCell c s := by
  rw [← writeView_eq_viewStored, getCell_writeView_other h]

end Sys2Proof.Machine
end

