-- ==== Sys2Proof/Laws/Handlers.lean ====
section
/-! SUPPORT. What each shared handler does, once: its next state when it completes, the fault otherwise, and the inversion
"if it answers next, then …" in the terms of the claims. -/

namespace Sys2Proof.Machine

/-! ### Data instructions with a source and a destination -/

theorem aluHandler_completes {op : Op} {f : Word → Word → Word} {s : State} {size : Size} {src : Operand} {dst : Dest}
    (hr : Readable s size src) (hw : Writable s size dst) :
    aluHandler op f size src dst s =
      .ok (dataDone op s size dst (f (operandValue s size (destOperand dst)) (operandValue s size src))) := by
  simp only [aluHandler, readDest]
  rw [readOp_readable (by simpa using hr), ok_bind, readOp_readable (by simpa [readable_destOperand] using hw), ok_bind,
    writeOp_writable _ (by simpa using hw)]
  simp [advance_destStored_clearFor]

theorem aluHandler_source_fault {op : Op} {f : Word → Word → Word} {s : State} {size : Size} {m : MemRef} {dst : Dest}
    (h : ¬ Accessible s size m) : aluHandler op f size (.mem m) dst s = .error (accessFault s size m) := by
  simp only [aluHandler]
  rw [readOp_unreadable (by simpa using h)]
  simp

theorem aluHandler_dest_fault {op : Op} {f : Word → Word → Word} {s : State} {size : Size} {src : Operand} {m : MemRef}
    (hr : Readable s size src) (h : ¬ Accessible s size m) :
    aluHandler op f size src (.mem m) s = .error (accessFault s size m) := by
  simp only [aluHandler, readDest, destOperand]
  rw [readOp_readable (by simpa using hr), ok_bind, readOp_unreadable (by simpa using h)]
  simp

/-- Everything `aluHandler` can do when it answers. -/
theorem aluHandler_ok {op : Op} {f : Word → Word → Word} {s t : State} {size : Size} {src : Operand} {dst : Dest}
    (h : aluHandler op f size src dst s = .ok t) :
    Readable s size src ∧ Writable s size dst ∧
      t = dataDone op s size dst (f (operandValue s size (destOperand dst)) (operandValue s size src)) := by
  rcases readOp_cases s size src with ⟨hr, -⟩ | ⟨m, rfl, hm, -⟩
  · rcases writeOp_cases s size dst 0 with ⟨hw, -⟩ | ⟨m, rfl, hm, -⟩
    · rw [aluHandler_completes hr hw] at h
      exact ⟨hr, hw, by simpa using h.symm⟩
    · rw [aluHandler_dest_fault hr hm] at h; cases h
  · rw [aluHandler_source_fault hm] at h; cases h

theorem shiftHandler_completes {op : Op} {f : Word → Nat → Word} {s : State} {size : Size} {src : Operand} {dst : Dest}
    (hr : Readable s size src) (hw : Writable s size dst) (hc : (operandValue s size src).toNat ≤ 31) :
    shiftHandler op f size src dst s =
      .ok (dataDone op s size dst (f (operandValue s size (destOperand dst)) (operandValue s size src).toNat)) := by
  simp only [shiftHandler, readDest]
  rw [readOp_readable (by simpa using hr), ok_bind, readOp_readable (by simpa [readable_destOperand] using hw), ok_bind,
    if_neg (by simpa using hc), writeOp_writable _ (by simpa using hw)]
  simp [advance_destStored_clearFor]

theorem shiftHandler_source_fault {op : Op} {f : Word → Nat → Word} {s : State} {size : Size} {m : MemRef} {dst : Dest}
    (h : ¬ Accessible s size m) : shiftHandler op f size (.mem m) dst s = .error (accessFault s size m) := by
  simp only [shiftHandler]
  rw [readOp_unreadable (by simpa using h)]
  simp

theorem shiftHandler_dest_fault {op : Op} {f : Word → Nat → Word} {s : State} {size : Size} {src : Operand} {m : MemRef}
    (hr : Readable s size src) (h : ¬ Accessible s size m) :
    shiftHandler op f size src (.mem m) s = .error (accessFault s size m) := by
  simp only [shiftHandler, readDest, destOperand]
  rw [readOp_readable (by simpa using hr), ok_bind, readOp_unreadable (by simpa using h)]
  simp

theorem shiftHandler_count_fault {op : Op} {f : Word → Nat → Word} {s : State} {size : Size} {src : Operand} {dst : Dest}
    (hr : Readable s size src) (hw : Writable s size dst) (hc : 31 < (operandValue s size src).toNat) :
    shiftHandler op f size src dst s = .error (.shiftCountOutOfRange (operandValue s size src)) := by
  simp only [shiftHandler, readDest]
  rw [readOp_readable (by simpa using hr), ok_bind, readOp_readable (by simpa [readable_destOperand] using hw), ok_bind,
    if_pos (by simpa using hc)]
  simp

/-- Everything `shiftHandler` can do when it answers. -/
theorem shiftHandler_ok {op : Op} {f : Word → Nat → Word} {s t : State} {size : Size} {src : Operand} {dst : Dest}
    (h : shiftHandler op f size src dst s = .ok t) :
    Readable s size src ∧ Writable s size dst ∧ (operandValue s size src).toNat ≤ 31 ∧
      t = dataDone op s size dst (f (operandValue s size (destOperand dst)) (operandValue s size src).toNat) := by
  rcases readOp_cases s size src with ⟨hr, -⟩ | ⟨m, rfl, hm, -⟩
  · rcases writeOp_cases s size dst 0 with ⟨hw, -⟩ | ⟨m, rfl, hm, -⟩
    · by_cases hc : (operandValue s size src).toNat ≤ 31
      · rw [shiftHandler_completes hr hw hc] at h
        exact ⟨hr, hw, hc, by simpa using h.symm⟩
      · rw [shiftHandler_count_fault hr hw (by omega)] at h; cases h
    · rw [shiftHandler_dest_fault hr hm] at h; cases h
  · rw [shiftHandler_source_fault hm] at h; cases h

theorem stepHandler_completes {f : Word → Word} {s : State} {size : Size} {dst : Dest} (hw : Writable s size dst) :
    stepHandler f size dst s =
      .ok { destStored s size dst (f (operandValue s size (destOperand dst))) with
        flags := zeroOnly (f (operandValue s size (destOperand dst))), pc := s.pc + 1 } := by
  simp only [stepHandler, readDest]
  rw [readOp_readable (by simpa [readable_destOperand] using hw), ok_bind, writeOp_writable _ (by simpa using hw)]
  cases dst <;> rfl

theorem stepHandler_fault {f : Word → Word} {s : State} {size : Size} {m : MemRef} (h : ¬ Accessible s size m) :
    stepHandler f size (.mem m) s = .error (accessFault s size m) := by
  simp only [stepHandler, readDest, destOperand]
  rw [readOp_unreadable (by simpa using h)]
  rfl

/-- Everything `stepHandler` can do when it answers. -/
theorem stepHandler_ok {f : Word → Word} {s t : State} {size : Size} {dst : Dest} (h : stepHandler f size dst s = .ok t) :
    Writable s size dst ∧ t = { destStored s size dst (f (operandValue s size (destOperand dst))) with
      flags := zeroOnly (f (operandValue s size (destOperand dst))), pc := s.pc + 1 } := by
  rcases writeOp_cases s size dst 0 with ⟨hw, -⟩ | ⟨m, rfl, hm, -⟩
  · rw [stepHandler_completes hw] at h
    exact ⟨hw, by simpa using h.symm⟩
  · rw [stepHandler_fault hm] at h; cases h

theorem compareHandler_completes {f : Word → Word → Flags} {s : State} {size : Size} {src dst : Operand}
    (hr : Readable s size src) (hr' : Readable s size dst) :
    compareHandler f size src dst s =
      .ok { s with flags := f (operandValue s size dst) (operandValue s size src), pc := s.pc + 1 } := by
  simp only [compareHandler]
  rw [readOp_readable (by simpa using hr), ok_bind, readOp_readable (by simpa using hr'), ok_bind]
  simp only [operandValue_clearFlags]
  rfl

theorem compareHandler_source_fault {f : Word → Word → Flags} {s : State} {size : Size} {m : MemRef} {dst : Operand}
    (h : ¬ Accessible s size m) : compareHandler f size (.mem m) dst s = .error (accessFault s size m) := by
  simp only [compareHandler]
  rw [readOp_unreadable (by simpa using h)]
  rfl

theorem compareHandler_dest_fault {f : Word → Word → Flags} {s : State} {size : Size} {src : Operand} {m : MemRef}
    (hr : Readable s size src) (h : ¬ Accessible s size m) :
    compareHandler f size src (.mem m) s = .error (accessFault s size m) := by
  simp only [compareHandler]
  rw [readOp_readable (by simpa using hr), ok_bind, readOp_unreadable (by simpa using h)]
  rfl

/-- Everything `compareHandler` can do when it answers. -/
theorem compareHandler_ok {f : Word → Word → Flags} {s t : State} {size : Size} {src dst : Operand}
    (h : compareHandler f size src dst s = .ok t) :
    t = { s with flags := f (operandValue s size dst) (operandValue s size src), pc := s.pc + 1 } := by
  rcases readOp_cases s size src with ⟨hr, -⟩ | ⟨m, rfl, hm, -⟩
  · rcases readOp_cases s size dst with ⟨hr', -⟩ | ⟨m, rfl, hm, -⟩
    · rw [compareHandler_completes hr hr'] at h
      simpa using h.symm
    · rw [compareHandler_dest_fault hr hm] at h; cases h
  · rw [compareHandler_source_fault hm] at h; cases h

/-! ### The accumulator pair -/

theorem readView_pairLow (c : Cells) (size : Size) : readView c (pairLow size) = lowAcc c size := by
  cases size <;> simp [readView_eq_viewValue, lowAcc, pairLow, viewValue]

theorem readView_pairHigh (c : Cells) (size : Size) : readView c (pairHigh size) = highAcc c size := by
  cases size <;> simp [readView_eq_viewValue, highAcc, pairHigh, viewValue]

theorem two_pow_bitsOf (size : Size) : 2 ^ bitsOf size = modulus size := by cases size <;> decide

theorem modulus_pos (size : Size) : 0 < modulus size := by cases size <;> decide

theorem modulus_le (size : Size) : modulus size ≤ 4294967296 := by cases size <;> decide

theorem lowAcc_lt (c : Cells) (size : Size) : (lowAcc c size).toNat < modulus size := by
  rw [← readView_pairLow]
  have := readView_toNat_lt c (pairLow size)
  cases size <;> simpa [pairLow, widthOf, modulus] using this

theorem highAcc_lt (c : Cells) (size : Size) : (highAcc c size).toNat < modulus size := by
  rw [← readView_pairHigh]
  have := readView_toNat_lt c (pairHigh size)
  cases size <;> simpa [pairHigh, widthOf, modulus] using this

theorem product_eq_exactProduct (s : State) (size : Size) (x : Word) :
    product s.params size (readView s.cells (pairLow size)) x = exactProduct s size x := by
  simp only [product, exactProduct, readView_pairLow, two_pow_bitsOf]
  cases size <;> rcases h : s.params.mul32High <;> simp [lowAcc]

theorem dividend_eq_pairValue (c : Cells) (size : Size) : dividend c size = pairValue c size := by
  simp only [dividend, pairValue, readView_pairLow, readView_pairHigh, two_pow_bitsOf]

theorem writePair_eq (s : State) (size : Size) (lo hi : Word) :
    writePair s size lo hi = { s with cells := pairStored s.cells size lo hi } := by
  cases size <;> simp [writePair, pairStored, writeView_eq_viewStored, pairLow, pairHigh, viewStored]

/-- The low view of a written pair. -/
theorem lowAcc_pairStored (c : Cells) (size : Size) (lo hi : Word) :
    (lowAcc (pairStored c size lo hi) size).toNat = lo.toNat % modulus size := by
  have := lo.isLt
  cases size with
  | b =>
    have h : (withHigh8 (withLow8 c.a lo) hi).extractLsb' 0 8 = lo.extractLsb' 0 8 := by
      apply BitVec.eq_of_getLsbD_eq
      intro i hi
      simp [getLsbD_withHigh8, getLsbD_withLow8, hi, show ¬ 8 ≤ i by omega]
    simp only [lowAcc, pairStored, viewStored, viewValue, modulus, h]
    simp
    omega
  | w =>
    have h : (withLow16 c.a lo).extractLsb' 0 16 = lo.extractLsb' 0 16 := by
      apply BitVec.eq_of_getLsbD_eq
      intro i hi
      simp [getLsbD_withLow16, hi]
    simp only [lowAcc, pairStored, viewStored, viewValue, modulus, h]
    simp
    omega
  | l => simp only [lowAcc, pairStored, modulus]; omega

/-- The high view of a written pair. -/
theorem highAcc_pairStored (c : Cells) (size : Size) (lo hi : Word) :
    (highAcc (pairStored c size lo hi) size).toNat = hi.toNat % modulus size := by
  have := hi.isLt
  cases size with
  | b =>
    have h : (withHigh8 (withLow8 c.a lo) hi).extractLsb' 8 8 = hi.extractLsb' 0 8 := by
      apply BitVec.eq_of_getLsbD_eq
      intro i hi
      simp [getLsbD_withHigh8, hi, show 8 + i < 16 by omega]
    simp only [highAcc, pairStored, viewStored, viewValue, modulus, h]
    simp
    omega
  | w =>
    have h : (withLow16 c.d hi).extractLsb' 0 16 = hi.extractLsb' 0 16 := by
      apply BitVec.eq_of_getLsbD_eq
      intro i hi
      simp [getLsbD_withLow16, hi]
    simp only [highAcc, pairStored, viewStored, viewValue, modulus, h]
    simp
    omega
  | l => simp only [highAcc, pairStored, modulus]; omega

/-- The cells that the pair does not lie in. -/
theorem getCell_pairStored_other {slot : Slot} (ha : slot ≠ .a) (hd : slot ≠ .d) (c : Cells) (size : Size) (lo hi : Word) :
    getCell (pairStored c size lo hi) slot = getCell c slot := by
  cases size <;> cases slot <;> first | contradiction | rfl

@[simp] theorem pairStored_byte_d (c : Cells) (lo hi : Word) : (pairStored c .b lo hi).d = c.d := rfl

/-! ### The stack slot -/

theorem slotAccessible_clearFor (op : Op) (s : State) (a : Word) :
    SlotAccessible (clearFor op s) a ↔ SlotAccessible s a := by simp [SlotAccessible]

/-- A change of `SP` leaves the other cells. -/
theorem getCell_withSp {slot : Slot} (h : slot ≠ .sp) (c : Cells) (a : Word) :
    getCell { c with sp := a } slot = getCell c slot := by
  cases slot <;> first | contradiction | rfl

theorem pushSlot_accessible {s : State} (v : Word) (h : SlotAccessible s (s.cells.sp - 4)) :
    pushSlot s v = .ok { s with
      mem := dwordStored s.mem (s.cells.sp - 4).toNat v, cells := { s.cells with sp := s.cells.sp - 4 } } := by
  simp only [pushSlot, stackPointer_eq]
  rw [memWrite_inBounds _ h, ok_bind, writeLE_four]
  simp [setStackPointer]

theorem pushSlot_inaccessible {s : State} (v : Word) (h : ¬ SlotAccessible s (s.cells.sp - 4)) :
    pushSlot s v = .error (.outOfBounds (s.cells.sp - 4) 4) := by
  simp only [pushSlot, stackPointer_eq]
  rw [memWrite_outOfBounds _ h]
  rfl

theorem memRead_slot {s : State} {a : Word} (h : SlotAccessible s a) : memRead s a 4 = .ok (dwordAt s.mem a.toNat) := by
  rw [memRead_inBounds h, readLE_four]
  simp

/-- A stored slot reads back. -/
theorem dwordAt_dwordStored {m : Memory} (h : Memory.wf m = true) (a : Nat) (v : Word) :
    dwordAt (dwordStored m a v) a = v := by
  apply BitVec.eq_of_toNat_eq
  rw [← readLE_four, ← writeLE_four]
  have hb : ∀ i, i < 4 → (readByte (writeLE m a 4 v) (a + i)).toNat = v.toNat / 2 ^ (8 * i) % 256 := by
    intro i hi
    rw [readByte_writeLE h, if_pos (by omega)]
    simp [BitVec.toNat_ushiftRight, Nat.shiftRight_eq_div_pow]
  have h0 := hb 0
  have h1 := hb 1
  have h2 := hb 2
  have h3 := hb 3
  have := v.isLt
  simp only [readLE, show a + 1 + 1 = a + 2 from rfl, show a + 2 + 1 = a + 3 from rfl]
  simp at h0 h1 h2 h3 ⊢
  omega

end Sys2Proof.Machine
end

