-- ==== Sys2Proof/Laws/Instr.lean ====
section
/-! SUPPORT. For each instruction, everything it can do when `exec` answers a next state, and that `exec` never refuses. The
later lemmas cite these and never unfold a meaning. -/

namespace Sys2Proof.Machine

theorem exec_mov_next {s t : State} {size : Size} {src : Operand} {dst : Dest} (h : exec (.mov size src dst) s = .next t) :
    Readable s size src ∧ Writable s size dst ∧ t = dataDone .mov s size dst (operandValue s size src) := by
  simp only [exec, execMov] at h
  rcases readOp_cases (clearFor .mov s) size src with ⟨hr, hv⟩ | ⟨m, rfl, hm, hv⟩
  · rw [hv, ok_bind] at h
    rcases writeOp_cases (clearFor .mov s) size dst (operandValue (clearFor .mov s) size src) with ⟨hw, hx⟩ | ⟨m, rfl, hm, hx⟩
    · rw [hx] at h
      refine ⟨by simpa using hr, by simpa using hw, ?_⟩
      simpa [advance_destStored_clearFor] using h.symm
    · rw [hx] at h; cases h
  · rw [hv] at h; cases h

theorem exec_lea_next {s t : State} {size : Size} {src : MemRef} {dst : Dest} (h : exec (.lea size src dst) s = .next t) :
    Writable s size dst ∧ t = dataDone .lea s size dst (effectiveAddress s.cells src) := by
  simp only [exec, execLea] at h
  rcases writeOp_cases (clearFor .lea s) size dst (effectiveAddress (clearFor .lea s).cells src) with ⟨hw, hx⟩ | ⟨m, rfl, hm, hx⟩
  · rw [hx] at h
    refine ⟨by simpa using hw, ?_⟩
    simpa [advance_destStored_clearFor] using h.symm
  · rw [hx] at h; cases h

theorem exec_mul_next {s t : State} {size : Size} {src : Operand} (h : exec (.mul size src) s = .next t) :
    Readable s size src ∧ t = { s with
      cells := pairStored s.cells size
        (BitVec.ofNat 32 (exactProduct s size (operandValue s size src) % modulus size))
        (BitVec.ofNat 32 (exactProduct s size (operandValue s size src) / modulus size))
      flags := flagsAfter .mul s
      pc := s.pc + 1 } := by
  simp only [exec, execMul] at h
  rcases readOp_cases (clearFor .mul s) size src with ⟨hr, hv⟩ | ⟨m, rfl, hm, hv⟩
  · rw [hv] at h
    refine ⟨by simpa using hr, ?_⟩
    simpa [product_eq_exactProduct, two_pow_bitsOf, writePair_eq, advance, clearFor_flags_eq] using h.symm
  · rw [hv] at h; cases h

theorem exec_div_next {s t : State} {size : Size} {src : Operand} (h : exec (.div size src) s = .next t) :
    Readable s size src ∧
    let v := (operandValue s size src).toNat % modulus size
    let n := pairValue s.cells size
    v ≠ 0 ∧ n / v < modulus size ∧ t = { s with
      cells := pairStored s.cells size (BitVec.ofNat 32 (n / v)) (BitVec.ofNat 32 (n % v))
      flags := flagsAfter .div s
      pc := s.pc + 1 } := by
  simp only [exec, execDiv] at h
  rcases readOp_cases (clearFor .div s) size src with ⟨hr, hv⟩ | ⟨m, rfl, hm, hv⟩
  · refine ⟨by simpa using hr, ?_⟩
    rw [hv, ok_bind] at h
    simp only [two_pow_bitsOf, dividend_eq_pairValue, operandValue_clearFor, clearFor_cells] at h
    split at h
    · cases h
    · rename_i h0
      split at h
      · cases h
      · rename_i h1
        refine ⟨h0, by omega, ?_⟩
        simpa [writePair_eq, advance, clearFor_flags_eq] using h.symm
  · rw [hv] at h; cases h

theorem exec_push_next {s t : State} {size : Size} {src : Operand} (h : exec (.push size src) s = .next t) :
    Readable s size src ∧ SlotAccessible s (s.cells.sp - 4) ∧ t = { s with
      mem := dwordStored s.mem (s.cells.sp - 4).toNat (operandValue s size src)
      cells := { s.cells with sp := s.cells.sp - 4 }
      flags := flagsAfter .push s
      pc := s.pc + 1 } := by
  simp only [exec, execPush] at h
  rcases readOp_cases (clearFor .push s) size src with ⟨hr, hv⟩ | ⟨m, rfl, hm, hv⟩
  · rw [hv, ok_bind] at h
    by_cases ha : SlotAccessible (clearFor .push s) ((clearFor .push s).cells.sp - 4)
    · rw [pushSlot_accessible _ ha] at h
      refine ⟨by simpa using hr, by simpa [SlotAccessible] using ha, ?_⟩
      simpa [advance, clearFor_flags_eq] using h.symm
    · rw [pushSlot_inaccessible _ ha] at h; cases h
  · rw [hv] at h; cases h

theorem exec_pop_next {s t : State} {size : Size} {dst : Dest} (h : exec (.pop size dst) s = .next t) :
    SlotAccessible s s.cells.sp ∧ Writable s size dst ∧
    let u := destStored s size dst (dwordAt s.mem s.cells.sp.toNat)
    t = { u with cells := { u.cells with sp := s.cells.sp + 4 }, flags := flagsAfter .pop s, pc := s.pc + 1 } := by
  simp only [exec, execPop, stackPointer_eq, clearFor_cells] at h
  by_cases ha : SlotAccessible (clearFor .pop s) s.cells.sp
  · rw [memRead_slot ha, ok_bind] at h
    rcases writeOp_cases (clearFor .pop s) size dst (dwordAt (clearFor .pop s).mem s.cells.sp.toNat) with
      ⟨hw, hx⟩ | ⟨m, rfl, hm, hx⟩
    · rw [hx] at h
      refine ⟨by simpa [SlotAccessible] using ha, by simpa using hw, ?_⟩
      cases dst <;> simpa [advance, destStored, clearFor_flags_eq, addressOf, setStackPointer] using h.symm
    · rw [hx] at h; cases h
  · rw [memRead_outOfBounds ha] at h; cases h

theorem exec_call_internal_next {s t : State} {k : Nat} (h : exec (.call (.internal k)) s = .next t) :
    SlotAccessible s (s.cells.sp - 4) ∧ t = { s with
      mem := dwordStored s.mem (s.cells.sp - 4).toNat (BitVec.ofNat 32 (s.pc + 1))
      cells := { s.cells with sp := s.cells.sp - 4 }
      pc := k } := by
  simp only [exec, execCall] at h
  by_cases ha : SlotAccessible s (s.cells.sp - 4)
  · rw [pushSlot_accessible _ ha] at h
    exact ⟨ha, by simpa [jumpTo] using h.symm⟩
  · rw [pushSlot_inaccessible _ ha] at h; cases h

theorem exec_ret_next {s t : State} (h : exec .ret s = .next t) :
    SlotAccessible s s.cells.sp ∧ t = { s with
      cells := { s.cells with sp := s.cells.sp + 4 }
      pc := if (dwordAt s.mem s.cells.sp.toNat).toNat < s.program.code.length
            then (dwordAt s.mem s.cells.sp.toNat).toNat else s.program.code.length } := by
  simp only [exec, execRet, stackPointer_eq] at h
  by_cases ha : SlotAccessible s s.cells.sp
  · rw [memRead_slot ha] at h
    exact ⟨ha, by simpa [jumpTo, setStackPointer, programLength] using h.symm⟩
  · rw [memRead_outOfBounds ha] at h; cases h

theorem exec_loop_next {s t : State} {k : Nat} (h : exec (.loop k) s = .next t) :
    t = { s with cells := { s.cells with c := s.cells.c - 1 }, pc := if s.cells.c - 1 = 0 then s.pc + 1 else k } := by
  simp only [exec, execLoop, readView_full (v := .ecx) rfl, writeView_full (v := .ecx) rfl, slotOf, getCell, setCell] at h
  injection h with h
  subst h
  by_cases hc : s.cells.c - 1 = 0
  · rw [if_pos hc, decide_eq_false (by simpa using hc)]; rfl
  · rw [if_neg hc, decide_eq_true hc]; rfl

theorem outcomeOf_not_refused' {r : Except Fault State} {q : Refusal} (h : outcomeOf r = .refused q) : False :=
  outcomeOf_not_refused r q h

/-- No meaning refuses. -/
theorem exec_not_refused (i : Instr) (s : State) (q : Refusal) : exec i s ≠ .refused q := by
  intro h
  cases i with
  | call target => cases target with
    | internal t => exact outcomeOf_not_refused' h
    | external name => cases h
  | jmp | jl | jle | je | jge | jg | ja | jae | jne | jz | jnz | loop | int => cases h
  | _ => exact outcomeOf_not_refused' h

end Sys2Proof.Machine
end

