-- ==== Sys2Proof/Laws/Load.lean ====
section
/-! SUPPORT. What a load leaves (60_exceptions.md R204; 70_reset_and_hazards.md R221 to R224). -/

namespace Sys2Proof.Machine

/-- Everything `decodeLines` can do when every line decodes. -/
theorem decodeLines_ok {p : Params} {tb : Tables} {lines : List Text} (n : Nat)
    (h : ∀ l ∈ lines, ∃ k, decodeLine p tb l = .ok k) :
    ∃ code, decodeLines p tb n lines = .ok code ∧ code.map Record.text = lines ∧
      ∀ r ∈ code, decodeLine p tb r.text = .ok r.kind := by
  induction lines generalizing n with
  | nil => exact ⟨[], rfl, rfl, by simp⟩
  | cons l ls ih =>
    obtain ⟨k, hk⟩ := h l List.mem_cons_self
    obtain ⟨code, hc, ht, hr⟩ := ih (n + 1) fun x hx => h x (List.mem_cons_of_mem _ hx)
    refine ⟨{ text := l, kind := k } :: code, by simp [decodeLines, hk, hc], by simp [ht], ?_⟩
    intro r hm
    rcases List.mem_cons.1 hm with rfl | hm
    · exact hk
    · exact hr r hm

/-- Everything `decodeLines` can do when it answers. -/
theorem decodeLines_next {p : Params} {tb : Tables} {lines : List Text} {n : Nat} {code : List Record}
    (h : decodeLines p tb n lines = .ok code) :
    code.map Record.text = lines ∧ ∀ r ∈ code, decodeLine p tb r.text = .ok r.kind := by
  induction lines generalizing n code with
  | nil =>
    injection h with h; subst h
    exact ⟨rfl, by simp⟩
  | cons l ls ih =>
    simp only [decodeLines] at h
    split at h
    · cases h
    · rename_i k hk
      split at h
      · cases h
      · rename_i rs hrs
        injection h with h; subst h
        obtain ⟨ht, hr⟩ := ih hrs
        refine ⟨by simp [ht], ?_⟩
        intro r hm
        rcases List.mem_cons.1 hm with rfl | hm
        · exact hk
        · exact hr r hm

/-- The first failing line gives the error. -/
theorem decodeLines_error {p : Params} {tb : Tables} {before after : List Text} {line : Text} {e : LineError} (n : Nat)
    (h : ∀ l ∈ before, ∃ k, decodeLine p tb l = .ok k) (he : decodeLine p tb line = .error e) :
    decodeLines p tb n (before ++ line :: after) = .error (lineLoadError (n + before.length) line e) := by
  induction before generalizing n with
  | nil => simp [decodeLines, he]
  | cons l ls ih =>
    obtain ⟨k, hk⟩ := h l List.mem_cons_self
    have := ih (n + 1) fun x hx => h x (List.mem_cons_of_mem _ hx)
    simp only [List.cons_append, decodeLines, hk, this, List.length_cons]
    congr 2
    omega

theorem load_eq (s : State) (inp : LoadInput) :
    load s inp =
      if 2147483647 < inp.lines.length then
        refuseLoad (State.resetWith s.params) (.programTooLarge inp.lines.length)
      else if s.params.capacity < inp.image.length then
        refuseLoad (State.resetWith s.params) (.imageTooLarge inp.image.length)
      else decodeProgram { State.resetWith s.params with mem := imageCells 0 inp.image } inp := rfl

/-- A load that passes its size checks decodes its lines on the reset state with the image in memory. -/
theorem load_fits {s : State} {inp : LoadInput} (h1 : inp.lines.length ≤ 2147483647)
    (h2 : inp.image.length ≤ s.params.capacity) :
    load s inp = decodeProgram { State.resetWith s.params with mem := imageCells 0 inp.image } inp := by
  rw [load_eq, if_neg (by omega), if_neg (by omega)]

theorem load_tooLong {s : State} {inp : LoadInput} (h : 2147483647 < inp.lines.length) :
    load s inp = refuseLoad (State.resetWith s.params) (.programTooLarge inp.lines.length) := by
  rw [load_eq, if_pos h]

theorem load_imageTooLarge {s : State} {inp : LoadInput} (h1 : inp.lines.length ≤ 2147483647)
    (h2 : s.params.capacity < inp.image.length) :
    load s inp = refuseLoad (State.resetWith s.params) (.imageTooLarge inp.image.length) := by
  rw [load_eq, if_neg (by omega), if_pos h2]

/-- Entering a program whose entry label is bound. -/
theorem enterProgram_found {s : State} {prog : Program} {t : Nat} (h : lookupName prog.entry prog.tables.textLabels = some t) :
    enterProgram s prog =
      { s with program := prog, pc := t, status := if t = prog.code.length then .halted else .running } := by
  simp [enterProgram, h]

theorem enterProgram_missing {s : State} {prog : Program} (h : lookupName prog.entry prog.tables.textLabels = none) :
    enterProgram s prog = refuseLoad s (.unresolvedLabel none prog.entry) := by
  simp [enterProgram, h]

/-- The cases of a load: a load error on the reset state, with the image in memory or without it, or a program that
runs. -/
theorem load_cases (s : State) (inp : LoadInput) :
    (∃ m e, (m = [] ∨ (inp.image.length ≤ s.params.capacity ∧ m = imageCells 0 inp.image)) ∧
      load s inp = refuseLoad { State.resetWith s.params with mem := m } e) ∨
    (∃ code t, inp.lines.length ≤ 2147483647 ∧ inp.image.length ≤ s.params.capacity ∧
      decodeLines s.params inp.tables 0 inp.lines = .ok code ∧
      lookupName inp.entry inp.tables.textLabels = some t ∧
      load s inp = { State.resetWith s.params with
        mem := imageCells 0 inp.image
        program := { code := code, tables := inp.tables, entry := inp.entry }
        pc := t
        status := if t = code.length then .halted else .running }) := by
  by_cases h1 : inp.lines.length ≤ 2147483647
  · by_cases h2 : inp.image.length ≤ s.params.capacity
    · rw [load_fits h1 h2]
      cases hd : decodeLines s.params inp.tables 0 inp.lines with
      | error e => exact .inl ⟨_, e, .inr ⟨h2, rfl⟩, by simp [decodeProgram, hd]⟩
      | ok code =>
        cases hl : lookupName inp.entry inp.tables.textLabels with
        | none => exact .inl ⟨_, _, .inr ⟨h2, rfl⟩, by simp [decodeProgram, hd, enterProgram, hl]; rfl⟩
        | some t => exact .inr ⟨code, t, h1, h2, rfl, rfl, by simp [decodeProgram, hd, enterProgram, hl]⟩
    · exact .inl ⟨[], _, .inl rfl, load_imageTooLarge h1 (by omega)⟩
  · exact .inl ⟨[], _, .inl rfl, load_tooLong (by omega)⟩

end Sys2Proof.Machine
end

