-- ==== Sys2Proof/Laws/PerInstr.lean ====
section
/-! SUPPORT. The family Spelling, per instruction: the mnemonic token that the encoder writes is read back as the
instruction's mnemonic and declared size (30_encoding.md R71 to R73, R93). -/

namespace Sys2Proof.Laws.Spelling

open Sys2Proof Sys2Proof.Machine

/-- The encoder's mnemonic token is its instruction's mnemonic, with the declared size. -/
def Statement (i : Instr) : Prop := classify (mnemonicText i) = .known (opOf i) (declaredSize i)

theorem mov (size : Size) (src : Operand) (dst : Dest) : Statement (.mov size src dst) := classify_mnemonicText _

theorem add (size : Size) (src : Operand) (dst : Dest) : Statement (.add size src dst) := classify_mnemonicText _

theorem sub (size : Size) (src : Operand) (dst : Dest) : Statement (.sub size src dst) := classify_mnemonicText _

theorem or (size : Size) (src : Operand) (dst : Dest) : Statement (.or size src dst) := classify_mnemonicText _

theorem xor (size : Size) (src : Operand) (dst : Dest) : Statement (.xor size src dst) := classify_mnemonicText _

theorem and (size : Size) (src : Operand) (dst : Dest) : Statement (.and size src dst) := classify_mnemonicText _

theorem inc (size : Size) (dst : Dest) : Statement (.inc size dst) := classify_mnemonicText _

theorem dec (size : Size) (dst : Dest) : Statement (.dec size dst) := classify_mnemonicText _

theorem shl (size : Size) (src : Operand) (dst : Dest) : Statement (.shl size src dst) := classify_mnemonicText _

theorem shr (size : Size) (src : Operand) (dst : Dest) : Statement (.shr size src dst) := classify_mnemonicText _

theorem sar (size : Size) (src : Operand) (dst : Dest) : Statement (.sar size src dst) := classify_mnemonicText _

theorem lea (size : Size) (src : MemRef) (dst : Dest) : Statement (.lea size src dst) := classify_mnemonicText _

theorem mul (size : Size) (src : Operand) : Statement (.mul size src) := classify_mnemonicText _

theorem div (size : Size) (src : Operand) : Statement (.div size src) := classify_mnemonicText _

theorem push (size : Size) (src : Operand) : Statement (.push size src) := classify_mnemonicText _

theorem pop (size : Size) (dst : Dest) : Statement (.pop size dst) := classify_mnemonicText _

theorem test (size : Size) (src dst : Operand) : Statement (.test size src dst) := classify_mnemonicText _

theorem cmp (size : Size) (src dst : Operand) : Statement (.cmp size src dst) := classify_mnemonicText _

theorem jmp (target : Nat) : Statement (.jmp target) := classify_mnemonicText _

theorem jl (target : Nat) : Statement (.jl target) := classify_mnemonicText _

theorem jle (target : Nat) : Statement (.jle target) := classify_mnemonicText _

theorem je (target : Nat) : Statement (.je target) := classify_mnemonicText _

theorem jge (target : Nat) : Statement (.jge target) := classify_mnemonicText _

theorem jg (target : Nat) : Statement (.jg target) := classify_mnemonicText _

theorem ja (target : Nat) : Statement (.ja target) := classify_mnemonicText _

theorem jae (target : Nat) : Statement (.jae target) := classify_mnemonicText _

theorem jne (target : Nat) : Statement (.jne target) := classify_mnemonicText _

theorem jz (target : Nat) : Statement (.jz target) := classify_mnemonicText _

theorem jnz (target : Nat) : Statement (.jnz target) := classify_mnemonicText _

theorem loop (target : Nat) : Statement (.loop target) := classify_mnemonicText _

theorem call (target : Target) : Statement (.call target) := classify_mnemonicText _

theorem ret : Statement .ret := classify_mnemonicText _

theorem int (imm : Word) : Statement (.int imm) := classify_mnemonicText _

end Sys2Proof.Laws.Spelling
end

