-- ==== Sys2Proof/Laws/Step.lean ====
section
/-! SUPPORT. What one instruction and one step keep, over all instructions, and the inversion of `step`. -/

namespace Sys2Proof.Machine

theorem sameElse_refl (s : State) : SameElse s s := ⟨rfl, rfl, rfl, rfl, rfl⟩

theorem noFlags_equal_zero : noFlags.e = noFlags.z := rfl

theorem flagsAfter_equal_zero {s : State} (op : Op) (h : s.flags.e = s.flags.z) :
    (flagsAfter op s).e = (flagsAfter op s).z := by
  unfold flagsAfter; split
  · rfl
  · exact h

/-- What every instruction keeps when it completes: it writes neither the parameters nor the program store, the status, the
diagnostics or the trace, and it keeps the form and the bounds of memory and the agreement of Equal and Zero. -/
structure Keeps (s t : State) : Prop where
  same : SameElse s t
  wf : Memory.wf s.mem = true → Memory.wf t.mem = true
  below : memBelow s.params.capacity s.mem = true → memBelow s.params.capacity t.mem = true
  equal_zero : s.flags.e = s.flags.z → t.flags.e = t.flags.z

/-- The stores of the destination writers keep all that, under any flags that agree and any `pc`. -/
theorem keeps_destStored {s : State} {size : Size} {d : Dest} (v : Word) {fl : Flags} (pc : Nat) (hw : Writable s size d)
    (hf : s.flags.e = s.flags.z → fl.e = fl.z) : Keeps s { destStored s size d v with flags := fl, pc := pc } := by
  cases d with
  | reg view => exact ⟨⟨rfl, rfl, rfl, rfl, rfl⟩, id, id, hf⟩
  | mem m =>
    exact ⟨⟨rfl, rfl, rfl, rfl, rfl⟩, fun h => wf_memStored h _ _ _, fun h => memBelow_memStored h _ _ _ hw, hf⟩

theorem keeps_dataDone {s : State} {size : Size} {d : Dest} (op : Op) (v : Word) (hw : Writable s size d) :
    Keeps s (dataDone op s size d v) := keeps_destStored v _ hw (flagsAfter_equal_zero op)

/-- So do the instructions that write cells only. -/
theorem keeps_cells (s : State) (c : Cells) {fl : Flags} (pc : Nat) (hf : s.flags.e = s.flags.z → fl.e = fl.z) :
    Keeps s { s with cells := c, flags := fl, pc := pc } := ⟨⟨rfl, rfl, rfl, rfl, rfl⟩, id, id, hf⟩

/-- So do those that store a slot. -/
theorem keeps_slot {s : State} {a : Word} (v : Word) (c : Cells) {fl : Flags} (pc : Nat) (ha : SlotAccessible s a)
    (hf : s.flags.e = s.flags.z → fl.e = fl.z) :
    Keeps s { s with mem := dwordStored s.mem a.toNat v, cells := c, flags := fl, pc := pc } :=
  ⟨⟨rfl, rfl, rfl, rfl, rfl⟩, fun h => wf_memStored h .l _ _, fun h => memBelow_memStored h .l _ _ ha, hf⟩

/-- What an instruction does to `pc`. -/
def PcOf (i : Instr) (s t : State) : Prop :=
  t.pc = s.pc + 1 ∨ targetOf i = some (.internal t.pc) ∨ (i = .ret ∧ t.pc ≤ s.program.code.length)

theorem branch_next {c : Bool} {k : Nat} {s t : State}
    (h : (Host.Outcome.next (branch c k s) : Host.Outcome State Fault Refusal) = .next t) :
    t = { s with pc := if c then k else s.pc + 1 } := by
  injection h with h; subst h
  cases c <;> rfl

/-- Everything that holds of every instruction. -/
theorem exec_keeps {i : Instr} {s t : State} (h : exec i s = .next t) : Keeps s t ∧ PcOf i s t := by
  have jump : ∀ {c : Bool} {k : Nat}, t = { s with pc := if c then k else s.pc + 1 } →
      Keeps s t ∧ (t.pc = s.pc + 1 ∨ t.pc = k) := by
    intro c k e
    subst e
    refine ⟨keeps_cells s s.cells _ id, ?_⟩
    cases c
    · exact .inl rfl
    · exact .inr rfl
  cases i with
  | mov size src dst =>
    obtain ⟨-, hw, rfl⟩ := exec_mov_next h
    exact ⟨keeps_dataDone _ _ hw, .inl rfl⟩
  | add size src dst | sub size src dst | or size src dst | xor size src dst | and size src dst =>
    obtain ⟨-, hw, rfl⟩ := aluHandler_ok (outcomeOf_next h)
    exact ⟨keeps_dataDone _ _ hw, .inl rfl⟩
  | inc size dst | dec size dst =>
    obtain ⟨hw, rfl⟩ := stepHandler_ok (outcomeOf_next h)
    exact ⟨keeps_destStored _ _ hw fun _ => rfl, .inl rfl⟩
  | shl size src dst | shr size src dst | sar size src dst =>
    obtain ⟨-, hw, -, rfl⟩ := shiftHandler_ok (outcomeOf_next h)
    exact ⟨keeps_dataDone _ _ hw, .inl rfl⟩
  | lea size src dst =>
    obtain ⟨hw, rfl⟩ := exec_lea_next h
    exact ⟨keeps_dataDone _ _ hw, .inl rfl⟩
  | mul size src =>
    obtain ⟨-, rfl⟩ := exec_mul_next h
    exact ⟨keeps_cells _ _ _ (flagsAfter_equal_zero _), .inl rfl⟩
  | div size src =>
    obtain ⟨-, -, -, rfl⟩ := exec_div_next h
    exact ⟨keeps_cells _ _ _ (flagsAfter_equal_zero _), .inl rfl⟩
  | push size src =>
    obtain ⟨-, ha, rfl⟩ := exec_push_next h
    exact ⟨keeps_slot _ _ _ ha (flagsAfter_equal_zero _), .inl rfl⟩
  | pop size dst =>
    obtain ⟨-, hw, rfl⟩ := exec_pop_next h
    have k := keeps_destStored (s := s) (dwordAt s.mem s.cells.sp.toNat) (s.pc + 1) hw (flagsAfter_equal_zero .pop)
    exact ⟨⟨k.same, k.wf, k.below, k.equal_zero⟩, .inl rfl⟩
  | test size src dst =>
    obtain rfl := compareHandler_ok (outcomeOf_next h)
    exact ⟨keeps_cells _ _ _ fun _ => rfl, .inl rfl⟩
  | cmp size src dst =>
    obtain rfl := compareHandler_ok (outcomeOf_next h)
    exact ⟨keeps_cells _ _ _ fun _ => rfl, .inl rfl⟩
  | jmp k =>
    injection h with h; subst h
    exact ⟨keeps_cells s s.cells _ id, .inr (.inl rfl)⟩
  | jl k | jle k | je k | jge k | jg k | ja k | jae k | jne k | jz k | jnz k =>
    obtain ⟨hk, hp⟩ := jump (branch_next h)
    exact ⟨hk, hp.imp_right fun e => .inl (by rw [e]; rfl)⟩
  | loop k =>
    obtain rfl := exec_loop_next h
    refine ⟨keeps_cells s _ _ id, ?_⟩
    by_cases hc : s.cells.c - 1 = 0
    · exact .inl (if_pos hc)
    · exact .inr (.inl (by simp only [if_neg hc]; rfl))
  | call target =>
    cases target with
    | internal k =>
      obtain ⟨ha, rfl⟩ := exec_call_internal_next h
      exact ⟨keeps_slot _ _ _ ha id, .inr (.inl rfl)⟩
    | external name =>
      injection h with h; subst h
      exact ⟨keeps_cells s s.cells _ id, .inl rfl⟩
  | ret =>
    obtain ⟨-, rfl⟩ := exec_ret_next h
    refine ⟨keeps_cells s _ _ id, .inr (.inr ⟨rfl, ?_⟩)⟩
    simp only
    split <;> omega
  | int imm =>
    injection h with h; subst h
    exact ⟨keeps_cells s s.cells _ id, .inl rfl⟩

/-! ### The step -/

/-- No record is refused. -/
theorem execRecord_not_refused (r : Record) (s : State) (q : Refusal) : execRecord r s ≠ .refused q := by
  unfold execRecord
  split
  · exact nofun
  · unfold execUnknown; split <;> exact nofun
  · exact exec_not_refused _ _ _

/-- Everything a step can do when it answers a next state. -/
theorem step_cases {s t : State} (h : step s = .next t) :
    s.status = .running ∧ ∃ r, s.program.code[s.pc]? = some r ∧
      ((∃ u, execRecord r s = .next u ∧ t = finishStep (traceEventOf s.pc r) u) ∨
       (∃ f, execRecord r s = .fault f ∧ t = enterFault s r.text f)) := by
  simp only [step, stepRequest] at h
  split at h
  · rename_i hs
    refine ⟨hs, ?_⟩
    simp only [stepRunning] at h
    split at h
    · rename_i r hr
      refine ⟨r, hr, ?_⟩
      rcases ho : execRecord r s with u | f | q
      · rw [ho] at h
        exact .inl ⟨u, rfl, by simpa [settle] using h.symm⟩
      · rw [ho] at h
        exact .inr ⟨f, rfl, by simpa [settle] using h.symm⟩
      · exact absurd ho (execRecord_not_refused r s q)
    · cases h
  all_goals cases h

/-- The step at a record. -/
theorem step_of_record {s : State} {r : Record} (hs : s.status = .running) (hr : s.program.code[s.pc]? = some r) :
    step s = settle r s (execRecord r s) := by
  simp [step, stepRequest, stepRunning, hs, hr]

/-- Everything a completed record can do. -/
theorem execRecord_next {r : Record} {s u : State} (h : execRecord r s = .next u) :
    (∃ i, r.kind = .known i ∧ exec i s = .next u) ∨ (r.kind = .bypassed ∧ u = advance s) ∨
      (r.kind = .unknown ∧ s.params.unknownPolicy = .skip ∧
        u = advance { s with diags := s.diags ++ [{ pc := s.pc, text := r.text }] }) := by
  simp only [execRecord] at h
  split at h
  · rename_i hk
    injection h with h
    exact .inr (.inl ⟨hk, h.symm⟩)
  · rename_i hk
    simp only [execUnknown] at h
    split at h
    · rename_i hp
      injection h with h
      exact .inr (.inr ⟨hk, hp, h.symm⟩)
    · cases h
  · rename_i i hk
    exact .inl ⟨i, hk, h⟩

/-- The kind of a record of a coherent program is what its line decodes to. -/
theorem kind_of_coherent {p : Params} {prog : Program} {n : Nat} {r : Record} {k : Kind} (hc : Coherent p prog)
    (hr : prog.code[n]? = some r) (hd : decodeLine p prog.tables r.text = .ok k) : r.kind = k := by
  have := hc r (List.mem_of_getElem? hr)
  rw [hd] at this
  injection this with this
  exact this.symm

end Sys2Proof.Machine
end

