-- ==== Sys2Proof/Tests/Slice0.lean ====
section
/-! SUPPORT. Tests. Expected results are those of spec/95_test_vectors.md (V, E, W and P numbers), or are worked out by hand
from the rule named. Then one witness for the hypotheses of each statement, clause by clause. -/

namespace Sys2Proof.Tests

open Sys2Proof Sys2Proof.Machine

/-- The tables of 95_test_vectors.md Parts 2 and 3. -/
def tables : Tables where
  textLabels := [("t".toList, 9), ("top".toList, 2)]
  dataLabels := [("lbl".toList, { size := .l, base := 0x40 })]
  externs := ["printf".toList, "t".toList]

/-- A running machine: the reset state with these cells, flags, memory and `pc`, and a program of 11 lines. -/
def machine (cells : Cells → Cells) (flags : Flags := noFlags) (mem : Memory := []) (pc : Nat := 0) : State :=
  { State.reset with
    cells := cells State.reset.cells
    flags := flags
    mem := mem
    pc := pc
    status := .running
    program := { code := List.replicate 11 { text := "nop".toList, kind := .unknown }, tables := tables, entry := [] } }

/-- The state after the line at `pc` has run. -/
def after (s : State) (line : String) : Option State :=
  match step (placeLine s line.toList) with
  | .next t => some t
  | .fault _ => none
  | .refused _ => none

/-- The fault that the line at `pc` ends the run with. -/
def faultOf (s : State) (line : String) : Option Fault :=
  match (after s line).map State.status with
  | some (.faulted r) => some r.fault
  | _ => none

/-- Does the instruction answer a next state? -/
def completes (i : Instr) (s : State) : Bool :=
  match exec i s with
  | .next _ => true
  | .fault _ => false
  | .refused _ => false

theorem next_of_completes {i : Instr} {s : State} (h : completes i s = true) : ∃ t, exec i s = .next t := by
  unfold completes at h
  split at h
  · exact ⟨_, by assumption⟩
  · cases h
  · cases h

/-- The bytes of memory from an address on. -/
def bytes (m : Memory) (a n : Nat) : List Nat := (List.range n).map fun i => (readByte m (a + i)).toNat

/-! ### Well-formedness: one ill-formed term per check -/

theorem test_wf_accepts :
    (Instr.mov .l (.mem { base := some .esi, index := some .edi, scale := .x4, disp := 8 }) (.reg .eax)).wf tables ∧
    (Instr.inc .b (.mem { base := none, index := none, scale := .x1, disp := 0x40 })).wf tables ∧
    (Instr.jl 9).wf tables ∧ (Instr.call (.external "printf".toList)).wf tables := by decide

/-- R84: a 16-bit base. -/
theorem test_wf_narrow_base :
    (Instr.push .l (.mem { base := some .ax, index := none, scale := .x1, disp := 0 })).wf tables = false := by decide

/-- R84: an 8-bit index. -/
theorem test_wf_narrow_index :
    (Instr.pop .l (.mem { base := some .eax, index := some .ch, scale := .x1, disp := 0 })).wf tables = false := by decide

/-- R83: an index without a base. -/
theorem test_wf_index_without_base :
    (Instr.lea .l { base := none, index := some .ebx, scale := .x1, disp := 0x40 } (.reg .eax)).wf tables = false := by
  decide

/-- R83: a scale without an index. -/
theorem test_wf_scale_without_index :
    (Instr.mul .l (.mem { base := some .eax, index := none, scale := .x2, disp := 0 })).wf tables = false ∧
    (Instr.mul .l (.mem { base := none, index := none, scale := .x8, disp := 0x40 })).wf tables = false := by decide

/-- R87: an address with no register that is no data label's. -/
theorem test_wf_unnamed_address :
    (Instr.cmp .l (.imm 0) (.mem { base := none, index := none, scale := .x1, disp := 0x41 })).wf tables = false := by decide

/-- R94: a target that no text label names, an external name that is not in the set or is no identifier, and one that a
text label shadows. -/
theorem test_wf_targets :
    (Instr.loop 3).wf tables = false ∧ (Instr.call (.internal 8)).wf tables = false ∧
    (Instr.call (.external "puts".toList)).wf tables = false ∧
    (Instr.call (.external "a b".toList)).wf { tables with externs := ["a b".toList] } = false ∧
    (Instr.call (.external "t".toList)).wf tables = false := by decide

/-- R32, R222: labels are identifiers, bound once, and a text label lies in the program. -/
theorem test_tables_wf :
    tables.wf 9 = true ∧ tables.wf 8 = false ∧
    Tables.wf 9 { tables with textLabels := [("1a".toList, 0)] } = false ∧
    Tables.wf 9 { tables with textLabels := [("a".toList, 0), ("a".toList, 1)] } = false ∧
    Tables.wf 9 { tables with dataLabels := [("".toList, { size := .b, base := 0 })] } = false ∧
    Tables.wf 9 { tables with
      dataLabels := [("a".toList, { size := .b, base := 0 }), ("a".toList, { size := .b, base := 1 })] } = false := by
  decide

/-! ### Decoding, every mnemonic, from lines written out by R70 to R94 -/

def decodesTo (line : String) (i : Instr) : Bool :=
  decide (decodeLine defaultParams tables line.toList = .ok (.known i))

def refusesAs (line : String) (e : LineError) : Bool :=
  decide (decodeLine defaultParams tables line.toList = .error e)

theorem test_decode_T2W :
    decodesTo "movw lbl, %cx" (.mov .w (.mem { base := none, index := none, scale := .x1, disp := 0x40 }) (.reg .cx)) ∧
    decodesTo "addb $-1, (%ebp)"
      (.add .b (.imm 0xFFFFFFFF) (.mem { base := some .ebp, index := none, scale := .x1, disp := 0 })) ∧
    decodesTo "sub %eax, %ebx" (.sub .l (.reg .eax) (.reg .ebx)) ∧
    decodesTo "orl $0b101,%edx" (.or .l (.imm 5) (.reg .edx)) ∧
    decodesTo "xorb %dh, %bh" (.xor .b (.reg .dh) (.reg .bh)) ∧
    decodesTo "and $lbl, %edi" (.and .l (.imm 0x40) (.reg .edi)) := by decide

theorem test_decode_shifts :
    decodesTo "shl $2, %eax" (.shl .l (.imm 2) (.reg .eax)) ∧
    decodesTo "shrw %cl, -0x10( %ebx , %ecx, 8 )"
      (.shr .w (.reg .cl) (.mem { base := some .ebx, index := some .ecx, scale := .x8, disp := 0xFFFFFFF0 })) ∧
    decodesTo "sarb $'A', %al" (.sar .b (.imm 0x41) (.reg .al)) := by decide

theorem test_decode_T1 :
    decodesTo "incl %ecx" (.inc .l (.reg .ecx)) ∧ decodesTo "decb %ah" (.dec .b (.reg .ah)) ∧
    decodesTo "mull %ebx" (.mul .l (.reg .ebx)) ∧ decodesTo "divw $2" (.div .w (.imm 2)) ∧
    decodesTo "push $','" (.push .l (.imm 0x2C)) ∧ decodesTo "popb lbl"
      (.pop .b (.mem { base := none, index := none, scale := .x1, disp := 0x40 })) := by decide

theorem test_decode_T2A_T2R :
    decodesTo "leal 8(%esi,%edi,4), %eax"
      (.lea .l { base := some .esi, index := some .edi, scale := .x4, disp := 8 } (.reg .eax)) ∧
    decodesTo "testb $0x0F, %al" (.test .b (.imm 15) (.reg .al)) ∧
    decodesTo "cmpl $5, $6" (.cmp .l (.imm 5) (.imm 6)) := by decide

theorem test_decode_control :
    decodesTo "jmp t" (.jmp 9) ∧ decodesTo "jl t" (.jl 9) ∧ decodesTo "jle t" (.jle 9) ∧ decodesTo "je t" (.je 9) ∧
    decodesTo "jge t" (.jge 9) ∧ decodesTo "jg t" (.jg 9) ∧ decodesTo "ja t" (.ja 9) ∧ decodesTo "jae t" (.jae 9) ∧
    decodesTo "jne t" (.jne 9) ∧ decodesTo "jz t" (.jz 9) ∧ decodesTo "jnz t" (.jnz 9) ∧ decodesTo "loop top" (.loop 2) ∧
    decodesTo "call top" (.call (.internal 2)) ∧ decodesTo "call t" (.call (.internal 9)) ∧
    decodesTo "call printf" (.call (.external "printf".toList)) ∧ decodesTo "  ret  " .ret ∧
    decodesTo "int $0x80" (.int 0x80) := by decide

/-- E9, E14, E15, E16, E18, E19, E22, E24, E26, E29 to E36. -/
theorem test_decode_refuses :
    refusesAs "jll t" (.malformed .suffixOnControl) ∧ refusesAs "movl $1, $2" (.malformed .immediateDestination) ∧
    refusesAs "leal %eax, %ebx" (.malformed .leaSource) ∧ refusesAs "jmp nowhere" (.unresolved "nowhere".toList) ∧
    refusesAs "call puts" (.unresolved "puts".toList) ∧ refusesAs "movl $0x80000000, %eax" (.malformed .literalRange) ∧
    refusesAs "movl $010, %eax" (.malformed .badLiteral) ∧ refusesAs "movb $'\\n', %al" (.malformed .badCharacter) ∧
    refusesAs "movl $t, %eax" (.malformed .badImmediate) ∧ refusesAs "movl (%esi,%edi,3), %eax" (.malformed .badScale) ∧
    refusesAs "movl (%si), %eax" (.malformed .badRegister) ∧ refusesAs "movl (%ax), %ebx" (.malformed .narrowAddress) ∧
    refusesAs "movl %eax" (.malformed .operandCount) ∧ refusesAs "ret $4" (.malformed .operandCount) ∧
    refusesAs "jmp *%eax" (.malformed .badTarget) ∧ refusesAs "int %eax" (.malformed .operandClass) ∧
    refusesAs "mov ,%eax" (.malformed .emptyToken) ∧ refusesAs "movl (,%ebx,2), %eax" (.malformed .badRegister) ∧
    refusesAs "movl (%eax,%ebx), %eax" (.malformed .badMemoryForm) ∧ refusesAs "movl 64, %eax" (.malformed .badOperand) := by
  decide

/-- E11, E12, E13. -/
theorem test_decode_unknown_bypassed :
    decodeLine defaultParams tables "movq $1, %eax".toList = .ok .unknown ∧
    decodeLine defaultParams tables "MOV $1, %eax".toList = .ok .unknown ∧
    decodeLine defaultParams tables "subl $4, %esp".toList = .ok .bypassed := by decide

/-- The other two cases of log entry 11. -/
def espParams (e : SpacedEsp) : Params := { defaultParams with spacedEsp := e }

/-- R75, R102, R227: white space inside a token is dropped, so the line names `esp` and its text does not contain `%esp`: it is
refused, or run or bypassed where the parameter says so (log entry 11). -/
theorem test_decode_spaced_esp :
    decodeLine defaultParams tables "movl $8, % esp".toList = .error (.malformed .spacedEsp) ∧
    decodeLine defaultParams tables "movl 4(% e sp), %eax".toList = .error (.malformed .spacedEsp) ∧
    decodeLine (espParams .run) tables "movl $8, % esp".toList = .ok (.known (.mov .l (.imm 8) (.reg .esp))) ∧
    decodeLine (espParams .bypass) tables "movl $8, % esp".toList = .ok .bypassed := by decide

/-- R74, R73, R102: a line whose text lacks the pattern and which names no `esp` operand. -/
theorem test_decode_spaced_pattern_elsewhere :
    decodeLine defaultParams tables "nop % esp".toList = .ok .unknown ∧
    decodeLine defaultParams tables "jmpl % esp".toList = .error (.malformed .suffixOnControl) ∧
    decodeLine { defaultParams with bypassPattern := "%ebp".toList } tables "movl $8, % ebp".toList =
      .ok (.known (.mov .l (.imm 8) (.reg .ebp))) := by decide

/-- R94: the name of a data label is no branch target, and is unresolved (log entry 23). -/
theorem test_decode_data_label_target :
    decodeLine defaultParams tables "jmp lbl".toList = .error (.unresolved "lbl".toList) ∧
    decodeLine defaultParams tables "call lbl".toList = .error (.unresolved "lbl".toList) := by decide

/-- The bytes 'r' 'e' 't', the first in the least significant bits (log entry 2). -/
theorem test_decodeTableWord : decodeTableWord 24 0x746572 = some .ret ∧ decodeTableWord 32 0x00746572 = some .ret ∧
    decodeTableWord 24 0x706F6E = none := by decide

/-- The line "int $3" is placed and is what the next step runs. -/
theorem test_withFetchWord :
    (match step (State.reset.withFetchWord 48 0x332420746E69) with
      | .next t => decide (t.pc = 1 ∧ t.trace.map TraceEvent.kind = [.passThroughInt])
      | _ => false) = true := by decide

/-! ### One step of each instruction -/

theorem test_mov_narrow : (after (machine ({ · with a := 0x12345678 })) "movw $-1, %ax").map (·.cells.a) = some 0x1234FFFF := by
  decide -- V4

theorem test_mov_extends : (after (machine id noFlags [(0x40, 0x80)]) "movb lbl, %eax").map (·.cells.a) = some 0xFFFFFF80 := by
  decide -- V2

theorem test_add_wraps : (after (machine ({ · with a := 0x1FF })) "addb $1, %al").map (·.cells.a) = some 0x100 := by
  decide -- V10

theorem test_sub_narrow : (after (machine ({ · with a := 0x12345600 })) "subb $1, %al").map (·.cells.a) = some 0x123456FF := by
  decide -- V16

theorem test_or : (after (machine ({ · with a := 0xF0F0 })) "orl $0xFF00, %eax").map (·.cells.a) = some 0xFFF0 := by
  decide -- V18

theorem test_xor : (after (machine ({ · with a := 0x12345678 })) "xorb %al, %al").map (·.cells.a) = some 0x12345600 := by
  decide -- V20

theorem test_and_high : (after (machine ({ · with a := 0x1234FF78 })) "andb $0x0F, %ah").map (·.cells.a) = some 0x12340F78 := by
  decide -- V22

theorem test_inc_flags_before_truncation :
    (after (machine ({ · with a := 0xFF })) "incb %al").map (fun t => (t.cells.a, t.flags)) = some (0, noFlags) := by
  decide -- V25

theorem test_inc_memory : (after (machine id noFlags [(0x40, 0xFF)]) "incb lbl").map (fun t => (t.mem, t.flags.e, t.flags.z)) =
    some ([], true, true) := by
  decide -- V26

theorem test_dec : (after (machine ({ · with a := 0x1201 })) "decb %al").map (fun t => (t.cells.a, t.flags.e, t.flags.z)) =
    some (0x1200, true, true) := by
  decide -- V30

theorem test_shl_count_from_cl :
    (after (machine ({ · with a := 1, c := 0x104 })) "shll %cl, %eax").map (·.cells.a) = some 0x10 := by
  decide -- V46

theorem test_shl_count_faults :
    faultOf (machine ({ · with a := 1 })) "shll $-1, %eax" = some (.shiftCountOutOfRange 0xFFFFFFFF) := by
  decide -- V45

theorem test_shr_memory : (after (machine id noFlags [(0x40, 0x80)]) "shrb $1, lbl").map (·.mem) = some [(0x40, 0xC0)] := by
  decide -- V50

theorem test_sar_memory : (after (machine id noFlags [(0x41, 0x80)]) "sarw $4, lbl").map (·.mem) = some [(0x41, 0xF8)] := by
  decide -- V54

theorem test_lea : (after (machine ({ · with a := 5 })) "leal (%eax,%eax,2), %eax").map (·.cells.a) = some 15 := by
  decide -- V62

theorem test_mul_byte : (after (machine ({ · with a := 0xABCD0310 })) "mulb %ah").map (·.cells.a) = some 0xABCD0030 := by
  decide -- V67

theorem test_mul_long : (after (machine ({ · with a := 0xFFFFFFFF, b := 2 })) "mull %ebx").map
    (fun t => (t.cells.a, t.cells.d)) = some (0xFFFFFFFE, 1) := by
  decide -- V65

theorem test_div_byte : (after (machine ({ · with a := 0xFFFF0407 })) "divb $10").map (·.cells.a) = some 0xFFFF0167 := by
  decide -- V76

theorem test_div_overflows : faultOf (machine ({ · with a := 0xA00 })) "divb $10" = some (.divideOverflow 256) := by
  decide -- V77

theorem test_push_extends : (after (machine id noFlags [(0x40, 0x80)]) "pushb lbl").map
    (fun t => (t.cells.sp, bytes t.mem 0xFFFFC 4)) = some (0xFFFFC, [0x80, 0xFF, 0xFF, 0xFF]) := by
  decide -- V82

theorem test_pop_narrow :
    (after (machine ({ · with sp := 0xFFFFC }) noFlags [(0xFFFFC, 0x78), (0xFFFFD, 0x56), (0xFFFFE, 0x34), (0xFFFFF, 0x12)])
      "popw lbl").map (fun t => (t.cells.sp, bytes t.mem 0x40 4)) = some (0x100000, [0x78, 0x56, 0, 0]) := by
  decide -- V86

theorem test_test : (after (machine ({ · with a := 0xF0 })) "testb $0x0F, %al").map (·.flags) =
    some { noFlags with e := true, z := true } := by
  decide -- V92

theorem test_cmp_signs : (after (machine ({ · with a := 0xFFFFFFFF })) "cmpl $1, %eax").map (·.flags) =
    some { noFlags with l := true, le := true, a := true, ae := true } := by
  decide -- V95

theorem test_cmp_register_zero_extends : (after (machine ({ · with a := 0xFF })) "cmpb $-1, %al").map (·.flags) =
    some { noFlags with g := true, ge := true } := by
  decide -- V96

def conditionalLines : List String :=
  ["jl t", "jle t", "je t", "jge t", "jg t", "ja t", "jae t", "jne t", "jz t", "jnz t"]

/-- The flags of V95. -/
theorem test_jumps_less_above :
    (conditionalLines.map fun l =>
      (after (machine id { noFlags with l := true, le := true, a := true, ae := true } [] 5) l).map (·.pc)) =
    [some 9, some 9, some 6, some 6, some 6, some 9, some 9, some 9, some 6, some 9] := by decide

/-- The flags of V94. -/
theorem test_jumps_equal :
    (conditionalLines.map fun l =>
      (after (machine id { noFlags with le := true, e := true, ge := true, ae := true, z := true } [] 5) l).map (·.pc)) =
    [some 6, some 9, some 9, some 9, some 6, some 6, some 9, some 6, some 9, some 6] := by decide

theorem test_jmp : (after (machine id noFlags [] 5) "jmp t").map (·.pc) = some 9 := by decide -- V100

theorem test_loop_wraps : (after (machine id noFlags [] 3) "loop top").map (fun t => (t.cells.c, t.pc)) =
    some (0xFFFFFFFF, 2) := by
  decide -- V114

theorem test_loop_falls_through : (after (machine ({ · with c := 1 }) noFlags [] 3) "loop top").map
    (fun t => (t.cells.c, t.pc)) = some (0, 4) := by
  decide -- V113

theorem test_call : (after (machine id noFlags [] 3) "call top").map (fun t => (t.cells.sp, t.mem, t.pc)) =
    some (0xFFFFC, [(0xFFFFC, 4)], 2) := by
  decide -- V116

theorem test_call_external : (after (machine id noFlags [] 4) "call printf").map
    (fun t => (t.cells.sp, t.mem, t.pc, t.trace.map TraceEvent.kind)) = some (0x100000, [], 5, [.externalCall]) := by
  decide -- V117

theorem test_ret : (after (machine ({ · with sp := 0xFFFFC }) noFlags [(0xFFFFC, 4)] 10) "ret").map
    (fun t => (t.cells.sp, t.pc, t.status)) = some (0x100000, 4, .running) := by
  decide -- V118

theorem test_ret_to_the_end : (after (machine ({ · with sp := 0xFFFFC }) noFlags [(0xFFFFC, 0xFF)] 10) "ret").map
    (fun t => (t.pc, t.status)) = some (11, .halted) := by
  decide -- R183, R185: 0xFF is no index of the 11 lines

theorem test_int : (after (machine id { noFlags with l := true } [] 7) "int $0x80").map (fun t => (t.pc, t.flags.l)) =
    some (8, true) := by
  decide -- V122

theorem test_unknown_is_skipped : (after (machine id { noFlags with e := true } [] 2) "nop").map
    (fun t => (t.pc, t.flags.e, t.diags)) = some (3, true, [{ pc := 2, text := "nop".toList }]) := by
  decide -- V130

theorem test_bypassed : (after (machine ({ · with bp := 7 }) { noFlags with g := true }) "movl %esp, %ebp").map
    (fun t => (t.pc, t.cells.bp, t.flags.g, t.trace.map TraceEvent.kind)) = some (1, 7, true, [.bypassed]) := by
  decide -- V132

theorem test_out_of_bounds : (after (machine ({ · with a := 0xFFFFD })) "movl $1, (%eax)").map (fun t => (t.mem, t.pc, t.status)) =
    some ([], 0, .faulted
      { fault := .outOfBounds 0xFFFFD 4, pc := 0, text := "movl $1, (%eax)".toList }) := by
  decide -- V136

/-- The codes and names of R201. -/
theorem test_fault_codes :
    [Fault.outOfBounds 0 1, .divideByZero 0, .divideOverflow 256, .shiftCountOutOfRange 32, .unknownMnemonic 0].map
      (fun f => (faultCode f, faultName f)) =
    [(1, "OutOfBounds".toList), (2, "DivideByZero".toList), (3, "DivideOverflow".toList),
     (4, "ShiftCountOutOfRange".toList), (5, "UnknownMnemonic".toList)] ∧
    [LoadError.malformedInstruction 0 [] .badScale, .unresolvedLabel none [], .imageTooLarge 4, .programTooLarge 0].map
      (fun e => (loadErrorCode e, loadErrorName e)) =
    [(101, "MalformedInstruction".toList), (102, "UnresolvedLabel".toList), (103, "ImageTooLarge".toList),
     (104, "ProgramTooLarge".toList)] := by decide

/-! ### Load -/

/-- The program P1 of 95_test_vectors.md. -/
def sumProgram : LoadInput where
  lines := ["movl $0, %eax".toList, "movl $5, %ecx".toList, "addl %ecx, %eax".toList, "loop top".toList,
    "movl %eax, result".toList]
  tables := {
    textLabels := [("main".toList, 0), ("top".toList, 2)], dataLabels := [("result".toList, { size := .l, base := 0 })],
    externs := [] }
  image := [0x0A, 0, 1, 0]
  entry := "main".toList

theorem test_load :
    (let t := load State.reset sumProgram
     (t.status, t.pc, t.mem, t.cells.sp, t.program.code.length)) =
    (.running, 0, [(0, 0x0A), (2, 1)], 0x100000, 5) := by decide

theorem test_load_errors :
    (load State.reset { sumProgram with entry := "m".toList }).status =
      .loadRefused (.unresolvedLabel none "m".toList) ∧
    (load (State.resetWith { defaultParams with capacity := 3 }) sumProgram).status = .loadRefused (.imageTooLarge 4) ∧
    (load State.reset { sumProgram with lines := ["ret".toList, "jmp x".toList, "inc".toList] }).status =
      .loadRefused (.unresolvedLabel (some 1) "x".toList) := by decide

/-! ### Witnesses: concrete states and operands that meet the hypotheses of each statement, clause by clause, at the boundary
of each range -/

/-- With `ebx = 0`, the last 4 bytes of memory. -/
def edge : MemRef := { base := some .ebx, index := none, scale := .x1, disp := 0xFFFFC }

/-- With `ebx = 0`, 4 bytes of which the last does not exist; 1 and 2 bytes there do. -/
def past : MemRef := { base := some .ebx, index := none, scale := .x1, disp := 0xFFFFD }

/-- With `ebx = 0`, the first byte that does not exist. -/
def beyond : MemRef := { base := some .ebx, index := none, scale := .x1, disp := 0x100000 }

def m0 : State := machine id

/-- A machine with a full slot of 4 bytes, `d` first, at the top of the stack. -/
def stacked (d : Byte) : State :=
  machine ({ · with sp := 0xFFFFC }) noFlags [(0xFFFFC, d), (0xFFFFD, 0x56), (0xFFFFE, 0x34), (0xFFFFF, 0x12)]

theorem witness_accessible :
    Accessible m0 .l edge ∧ Accessible m0 .w past ∧ Accessible m0 .b past ∧ ¬ Accessible m0 .l past ∧
    ¬ Accessible m0 .b beyond ∧ ¬ Accessible m0 .w beyond ∧ ¬ Accessible m0 .l beyond := by
  unfold Accessible; decide

theorem witness_readable_writable :
    Readable m0 .l (.mem edge) ∧ Writable m0 .l (.mem edge) ∧ Readable m0 .b (.reg .ah) ∧ Writable m0 .w (.reg .eax) ∧
    Readable m0 .l (.imm 0) :=
  ⟨witness_accessible.1, witness_accessible.1, trivial, trivial, trivial⟩

theorem witness_ViewWriteMergesIntoItsCell : (31 < 32) ∧ Slot.b ≠ slotOf .ah ∧ (offsetOf .ah ≤ 15 ∧ 15 < offsetOf .ah + widthOf .ah) ∧
    ¬ (offsetOf .ah ≤ 16 ∧ 16 < offsetOf .ah + widthOf .ah) := by decide

theorem witness_MemReadIsTheLittleEndianSum :
    (0xFFFFF : Word).toNat + 1 ≤ m0.params.capacity ∧ (0xFFFFE : Word).toNat + 2 ≤ m0.params.capacity ∧
    (0xFFFFC : Word).toNat + 4 ≤ m0.params.capacity ∧ m0.params.capacity < (0xFFFFD : Word).toNat + 4 ∧
    m0.params.capacity < (0x100000 : Word).toNat + 1 := by decide

theorem witness_MemWriteStoresTheLowBytes : Memory.wf m0.mem = true ∧ (0xFFFFC : Word).toNat + 4 ≤ m0.params.capacity ∧
    m0.params.capacity < (0xFFFFD : Word).toNat + 4 := by decide

theorem witness_AccessOutsideMemoryRaisesOutOfBounds :
    (0xFFFFC : Word).toNat + 4 ≤ m0.params.capacity ∧ ¬ (0xFFFFD : Word).toNat + 4 ≤ m0.params.capacity ∧
    ¬ (0xFFFFFFFF : Word).toNat + 1 ≤ m0.params.capacity := by decide

theorem witness_ReadAfterWriteIsTruncation :
    Memory.wf m0.mem = true ∧ ∃ t, memWrite m0 0xFFFFE 2 0x12345678 = .ok t := ⟨rfl, _, rfl⟩

theorem witness_OperandReadExtendsByKind : Accessible m0 .w past ∧ ¬ Accessible m0 .w beyond :=
  ⟨witness_accessible.2.1, witness_accessible.2.2.2.2.2.1⟩

theorem witness_OperandWriteTruncatesByKind : Accessible m0 .l edge ∧ ¬ Accessible m0 .l past :=
  ⟨witness_accessible.1, witness_accessible.2.2.2.1⟩

/-- The three clauses of a statement about a source and a destination. -/
theorem witness_source_destination :
    (Readable m0 .l (.mem edge) ∧ Writable m0 .l (.mem edge)) ∧ ¬ Accessible m0 .l past ∧
    (Readable m0 .l (.imm 0) ∧ ¬ Accessible m0 .l beyond) :=
  ⟨⟨witness_accessible.1, witness_accessible.1⟩, witness_accessible.2.2.2.1, trivial, witness_accessible.2.2.2.2.2.2⟩

theorem witness_MovCopiesSourceToDestination :
    (Readable m0 .l (.mem edge) ∧ Writable m0 .l (.mem edge)) ∧ ¬ Accessible m0 .l past ∧
    (Readable m0 .l (.imm 0) ∧ ¬ Accessible m0 .l beyond) := witness_source_destination

theorem witness_AluWritesDestinationOpSource :
    (Readable m0 .l (.mem edge) ∧ Writable m0 .l (.mem edge)) ∧ ¬ Accessible m0 .l past ∧
    (Readable m0 .l (.imm 0) ∧ ¬ Accessible m0 .l beyond) := witness_source_destination

theorem witness_IncDecWriteResultAndZeroFlags : Writable m0 .l (.mem edge) ∧ ¬ Accessible m0 .l past :=
  ⟨witness_accessible.1, witness_accessible.2.2.2.1⟩

theorem witness_ShiftsMoveThePatternOrFaultOnTheCount :
    (Readable m0 .l (.imm 31) ∧ Writable m0 .l (.mem edge) ∧ (operandValue m0 .l (.imm 31)).toNat ≤ 31) ∧
    (¬ Accessible m0 .l past) ∧ (Readable m0 .l (.imm 31) ∧ ¬ Accessible m0 .l past) ∧
    (Readable m0 .l (.imm 32) ∧ Writable m0 .l (.mem edge) ∧ 31 < (operandValue m0 .l (.imm 32)).toNat) :=
  ⟨⟨trivial, witness_accessible.1, by decide⟩, witness_accessible.2.2.2.1, ⟨trivial, witness_accessible.2.2.2.1⟩, trivial,
    witness_accessible.1, by decide⟩

theorem witness_LeaWritesTheAddressWithoutAccess : Writable m0 .l (.mem edge) ∧ ¬ Accessible m0 .l past :=
  ⟨witness_accessible.1, witness_accessible.2.2.2.1⟩

theorem witness_MulWritesTheAccumulatorPair : Readable m0 .l (.mem edge) ∧ ¬ Accessible m0 .l past :=
  ⟨witness_accessible.1, witness_accessible.2.2.2.1⟩

/-- The same machine under `MUL32_HIGH = signed`. -/
def mSigned : State := { m0 with params := { defaultParams with mul32High := .signed } }

theorem witness_MulPairReadsAsTheExactProduct :
    (∃ t, exec (.mul .b (.reg .ah)) m0 = .next t) ∧ m0.params.mul32High = .unsigned ∧
    (∃ t, exec (.mul .l (.imm 0xFFFFFFFF)) mSigned = .next t) ∧ mSigned.params.mul32High = .signed :=
  ⟨next_of_completes (by decide), rfl, next_of_completes (by decide), rfl⟩

/-- `ax = 2560`. -/
def m2560 : State := machine ({ · with a := 0xA00 })

/-- The quotient 255 fits, 256 does not, and the divisor 0x100 counts 0 at size 1. -/
theorem witness_DivWritesQuotientAndRemainderOrFaults :
    (10 % modulus .b ≠ 0 ∧ pairValue { m2560.cells with a := 2559 } .b / (10 % modulus .b) < modulus .b) ∧
    ¬ Accessible m0 .b beyond ∧ (operandValue m2560 .b (.imm 0x100)).toNat % modulus .b = 0 ∧
    ((operandValue m2560 .b (.imm 10)).toNat % modulus .b ≠ 0 ∧
      modulus .b ≤ pairValue m2560.cells .b / ((operandValue m2560 .b (.imm 10)).toNat % modulus .b)) :=
  ⟨by decide, witness_accessible.2.2.2.2.1, by decide, by decide⟩

theorem witness_DivPairSatisfiesTheDivisionIdentity :
    ∃ t, exec (.div .b (.imm 10)) (machine ({ · with a := 2559 })) = .next t := next_of_completes (by decide)

/-- `SP = 2`: the slot below it lies outside memory. -/
def mSp2 : State := machine ({ · with sp := 2 })

theorem witness_PushStoresAFourByteSlot :
    (Readable m0 .b (.reg .al) ∧ SlotAccessible m0 (m0.cells.sp - 4)) ∧ ¬ Accessible m0 .b beyond ∧
    (Readable mSp2 .b (.reg .al) ∧ ¬ SlotAccessible mSp2 (mSp2.cells.sp - 4)) := by
  refine ⟨⟨trivial, ?_⟩, witness_accessible.2.2.2.2.1, trivial, ?_⟩ <;> unfold SlotAccessible <;> decide

theorem witness_PopLoadsAFourByteSlot :
    (SlotAccessible (stacked 0x78) (stacked 0x78).cells.sp ∧ Writable (stacked 0x78) .l (.mem edge)) ∧
    ¬ SlotAccessible m0 m0.cells.sp ∧
    (SlotAccessible (stacked 0x78) (stacked 0x78).cells.sp ∧ ¬ Accessible (stacked 0x78) .l past) := by
  refine ⟨⟨?_, ?_⟩, ?_, ?_, ?_⟩ <;> simp only [SlotAccessible, writable_mem, Accessible] <;> decide

theorem witness_TestSetsEqualAndZeroFromTheAnd :
    (Readable m0 .l (.mem edge) ∧ Readable m0 .l (.imm 0)) ∧ ¬ Accessible m0 .l past ∧
    (Readable m0 .l (.imm 0) ∧ ¬ Accessible m0 .l past) :=
  ⟨⟨witness_accessible.1, trivial⟩, witness_accessible.2.2.2.1, trivial, witness_accessible.2.2.2.1⟩

theorem witness_CmpSetsTheEightRelations :
    (Readable m0 .l (.mem edge) ∧ Readable m0 .l (.imm 0)) ∧ ¬ Accessible m0 .l past ∧
    (Readable m0 .l (.imm 0) ∧ ¬ Accessible m0 .l past) := witness_TestSetsEqualAndZeroFromTheAnd

theorem witness_CallPushesTheReturnIndex :
    SlotAccessible m0 (m0.cells.sp - 4) ∧ ¬ SlotAccessible mSp2 (mSp2.cells.sp - 4) :=
  ⟨witness_PushStoresAFourByteSlot.1.2, witness_PushStoresAFourByteSlot.2.2.2⟩

theorem witness_RetPopsTheReturnIndex :
    SlotAccessible (stacked 4) (stacked 4).cells.sp ∧ ¬ SlotAccessible m0 m0.cells.sp := by
  unfold SlotAccessible; decide

theorem witness_PushThenPopMovesTheValue :
    Memory.wf m0.mem = true ∧ Readable m0 .l (.reg .eax) ∧ SlotAccessible m0 (m0.cells.sp - 4) ∧ widthOf .ebx = 32 ∧
    View.ebx ≠ .esp := ⟨rfl, trivial, witness_PushStoresAFourByteSlot.1.2, rfl, by decide⟩

theorem witness_CallThenRetReturns :
    Memory.wf m0.mem = true ∧ SlotAccessible m0 (m0.cells.sp - 4) ∧ m0.pc < m0.program.code.length ∧
    m0.program.code.length ≤ 2147483647 := ⟨rfl, witness_PushStoresAFourByteSlot.1.2, by decide, by decide⟩

theorem witness_FlagClearHidesTheComparison :
    opOf (.mov .l (.imm 0) (.reg .ebx)) ∈ plainDataOps ∧
    opOf (.mov .l (.imm 0) (.reg .ebx)) ∈ m0.params.flagClearSet ∧
    ∃ t, exec (.mov .l (.imm 0) (.reg .ebx)) m0 = .next t := ⟨by decide, by decide, next_of_completes (by decide)⟩

/-- Both forms of destination, for every instruction of the statement. -/
theorem witness_DestinationWritersChangeOnlyTheDestination : Memory.wf m0.mem = true ∧
    ∀ dst ∈ [Dest.reg .ah, .mem edge], ∀ i ∈ [Instr.mov .l (.imm 1) dst, .add .l (.imm 1) dst, .sub .l (.imm 1) dst,
      .or .l (.imm 1) dst, .xor .l (.imm 1) dst, .and .l (.imm 1) dst, .inc .l dst, .dec .l dst, .shl .l (.imm 1) dst,
      .shr .l (.imm 1) dst, .sar .l (.imm 1) dst, .lea .l edge dst], ∃ t, exec i m0 = .next t := by
  refine ⟨rfl, fun dst hd i hi => next_of_completes ?_⟩
  have key : ([Dest.reg .ah, .mem edge].all fun dst => [Instr.mov .l (.imm 1) dst, .add .l (.imm 1) dst,
      .sub .l (.imm 1) dst, .or .l (.imm 1) dst, .xor .l (.imm 1) dst, .and .l (.imm 1) dst, .inc .l dst, .dec .l dst,
      .shl .l (.imm 1) dst, .shr .l (.imm 1) dst, .sar .l (.imm 1) dst, .lea .l edge dst].all (completes · m0)) = true := by
    decide
  exact List.all_eq_true.1 (List.all_eq_true.1 key dst hd) i hi

theorem witness_MulDivChangeOnlyTheAccumulatorPair :
    (∃ t, exec (.mul .b (.imm 2)) m0 = .next t) ∧ (∃ t, exec (.div .b (.imm 2)) m0 = .next t) ∧
    (∃ t, exec (.mul .w (.imm 2)) m0 = .next t) ∧ (∃ t, exec (.div .w (.imm 2)) m0 = .next t) ∧
    (∃ t, exec (.mul .l (.imm 2)) m0 = .next t) ∧ (∃ t, exec (.div .l (.imm 2)) m0 = .next t) := by
  refine ⟨?_, ?_, ?_, ?_, ?_, ?_⟩ <;> exact next_of_completes (by decide)

theorem witness_StackInstructionsChangeOnlySpAndTheirSlot :
    (Memory.wf m0.mem = true ∧ ∃ t, exec (.push .l (.imm 1)) m0 = .next t) ∧
    (∃ t, exec (.call (.internal 9)) m0 = .next t) ∧ Memory.wf (stacked 4).mem = true ∧
    (∃ t, exec (.pop .w (.reg .ax)) (stacked 4) = .next t) ∧ (∃ t, exec (.pop .l (.mem edge)) (stacked 4) = .next t) ∧
    (∃ t, exec .ret (stacked 4) = .next t) := by
  refine ⟨⟨rfl, ?_⟩, ?_, by decide, ?_, ?_, ?_⟩ <;> exact next_of_completes (by decide)

theorem witness_ComparesAndJumpsStoreNothing :
    ∀ i ∈ [Instr.test .l (.imm 1) (.mem edge), .cmp .b (.reg .al) (.imm 2), .loop 2, .jmp 9, .jl 9, .jle 9, .je 9, .jge 9,
      .jg 9, .ja 9, .jae 9, .jne 9, .jz 9, .jnz 9, .call (.external "printf".toList), .int 0x80], ∃ t, exec i m0 = .next t := by
  intro i hi
  have key : ([Instr.test .l (.imm 1) (.mem edge), .cmp .b (.reg .al) (.imm 2), .loop 2, .jmp 9, .jl 9, .jle 9, .je 9,
      .jge 9, .jg 9, .ja 9, .jae 9, .jne 9, .jz 9, .jnz 9, .call (.external "printf".toList), .int 0x80].all
      (completes · m0)) = true := by decide
  exact next_of_completes (List.all_eq_true.1 key i hi)

theorem witness_FlagsChangeOnlyAsTheClearAndTheProducersSay :
    (∃ t, exec (.jl 9) m0 = .next t) ∧ (∃ t, exec (.mov .l (.imm 0) (.reg .ebx)) m0 = .next t) ∧
    (∃ t, exec (.inc .l (.reg .eax)) m0 = .next t) ∧ (∃ t, exec (.cmp .l (.imm 0) (.reg .ebx)) m0 = .next t) := by
  refine ⟨?_, ?_, ?_, ?_⟩ <;> exact next_of_completes (by decide)

theorem witness_OnlyNamedAndImplicitCellsAreWritten :
    (∃ t, exec (.mul .b (.imm 2)) m0 = .next t) ∧ Slot.d ∉ writtenSlots (.mul .b (.imm 2)) :=
  ⟨next_of_completes (by decide), by decide⟩

/-! Witnesses for the step: coherent programs of one line. -/

/-- A running machine whose only line is the given one, decoded as the given kind, with the given parameters. -/
def oneLine (p : Params) (line : String) (k : Kind) : State :=
  { m0 with params := p, program := { code := [{ text := line.toList, kind := k }], tables := tables, entry := [] } }

theorem coherent_oneLine {p : Params} {line : String} {k : Kind}
    (h : decodeLine p tables line.toList = .ok k) :
    Coherent (oneLine p line k).params (oneLine p line k).program := by
  intro r hr
  simp only [oneLine, List.mem_cons, List.not_mem_nil, or_false] at hr
  subst hr
  exact h

def mMov : State := oneLine defaultParams "movl $5, %eax" (.known (.mov .l (.imm 5) (.reg .eax)))

def mPop : State := oneLine defaultParams "popl %eax" (.known (.pop .l (.reg .eax)))

theorem witness_StepRunsTheDecodedInstruction :
    (mMov.status = .running ∧ Coherent mMov.params mMov.program ∧ ∃ t, exec (.mov .l (.imm 5) (.reg .eax)) mMov = .next t) ∧
    (mPop.status = .running ∧ Coherent mPop.params mPop.program ∧
      exec (.pop .l (.reg .eax)) mPop = .fault (.outOfBounds 0x100000 4)) :=
  ⟨⟨rfl, coherent_oneLine (by decide), next_of_completes (by decide)⟩, rfl, coherent_oneLine (by decide), rfl⟩

theorem witness_BypassedLineOnlyAdvances :
    let s := oneLine defaultParams "subl $4, %esp" .bypassed
    s.status = .running ∧ Coherent s.params s.program ∧ (∃ r, s.program.code[s.pc]? = some r ∧
      containsText s.params.bypassPattern r.text = true) ∧
    (∃ r : Record, (oneLine (espParams .bypass) "movl $8, % esp" .bypassed).program.code[0]? = some r ∧ r.kind = .bypassed) ∧
    Coherent (espParams .bypass) (oneLine (espParams .bypass) "movl $8, % esp" .bypassed).program :=
  ⟨rfl, coherent_oneLine (by decide), ⟨_, rfl, by decide⟩, ⟨_, rfl, rfl⟩, coherent_oneLine (by decide)⟩

theorem witness_UnknownMnemonicFollowsThePolicy :
    let s := oneLine defaultParams "nop" .unknown
    let s' := oneLine { defaultParams with unknownPolicy := .fault } "nop" .unknown
    s.status = .running ∧ Coherent s.params s.program ∧ s.params.unknownPolicy = .skip ∧
    s'.status = .running ∧ Coherent s'.params s'.program ∧ s'.params.unknownPolicy = .fault ∧
    containsText s.params.bypassPattern "nop".toList = false ∧ classify (mnemonicToken "nop".toList) = .unknown :=
  ⟨rfl, coherent_oneLine (by decide), rfl, rfl, coherent_oneLine (by decide), rfl, by decide, by decide⟩

/-- One step that completes at the end, and one that faults. -/
theorem witness_step_outcomes :
    (mMov.status = .running ∧ ∃ t, step mMov = .next t ∧ t.status = .halted) ∧
    (mPop.status = .running ∧ ∃ t rec, step mPop = .next t ∧ t.status = .faulted rec) ∧
    (∃ t, step m0 = .next t ∧ t.status = .running ∧ t.diags ≠ m0.diags) :=
  ⟨⟨rfl, _, rfl, rfl⟩, ⟨rfl, _, _, rfl, rfl⟩, _, rfl, rfl, by decide⟩

theorem witness_FaultsArePreciseAndTerminal : ∃ t rec, step mPop = .next t ∧ t.status = .faulted rec ∧ mPop.status = .running :=
  ⟨_, _, rfl, rfl, rfl⟩

theorem witness_StepsHappenExactlyInRunning :
    (m0.status = .running ∧ m0.pc < m0.program.code.length) ∧ State.reset.status ≠ .running := by decide

theorem witness_RunHaltsExactlyAtTheEnd : mMov.status = .running ∧ ∃ t, step mMov = .next t := ⟨rfl, _, rfl⟩

theorem witness_EachCompletedStepEmitsOneEvent : mMov.status = .running ∧ ∃ t, step mMov = .next t := ⟨rfl, _, rfl⟩

theorem witness_DiagnosticsOnlyGrow : (∃ t, step mMov = .next t) ∧ ∃ t, step m0 = .next t := ⟨⟨_, rfl⟩, _, rfl⟩

theorem witness_ProgramStoreIsReadOnly : ∃ t, step mMov = .next t := ⟨_, rfl⟩

/-! Witnesses for the load and the decoder. -/

/-- Every line of P1 decodes and its entry label is bound. -/
theorem witness_LoadLeavesTheResetState :
    sumProgram.lines.length ≤ 2147483647 ∧ sumProgram.image.length ≤ State.reset.params.capacity ∧
    (∀ line ∈ sumProgram.lines, ∃ k, decodeLine State.reset.params sumProgram.tables line = .ok k) ∧
    lookupName sumProgram.entry sumProgram.tables.textLabels = some 0 := by
  refine ⟨by decide, by decide, ?_, by decide⟩
  intro line hl
  have key : (sumProgram.lines.all fun l =>
      (decodeLine State.reset.params sumProgram.tables l).toOption.isSome) = true := by decide
  have h := List.all_eq_true.1 key line hl
  cases hd : decodeLine State.reset.params sumProgram.tables line with
  | ok k => exact ⟨k, rfl⟩
  | error e => simp [hd, Except.toOption] at h

/-- A program one line too long, by its length alone. -/
theorem witness_LoadErrorsAreReportedInOrder :
    (2147483647 < (List.replicate 2147483648 "ret".toList).length) ∧
    (sumProgram.lines.length ≤ 2147483647 ∧
      (State.resetWith { defaultParams with capacity := 3 }).params.capacity < sumProgram.image.length) ∧
    (decodeLine defaultParams tables "ret".toList = .ok (.known .ret) ∧
      decodeLine defaultParams tables "ret $4".toList = .error (.malformed .operandCount)) ∧
    lookupName "m".toList sumProgram.tables.textLabels = none :=
  ⟨by rw [List.length_replicate]; decide, by decide, by decide, by decide⟩

theorem witness_LoadErrorEnablesNoStep : (load State.reset { sumProgram with entry := "m".toList }).status =
    .loadRefused (.unresolvedLabel none "m".toList) := by decide

theorem witness_LoadEstablishesTheInvariant : sumProgram.wf := by
  show sumProgram.tables.wf sumProgram.lines.length = true
  decide

/-- Both a line without the bypass pattern and one with it. -/
theorem witness_DecodeOfEncodeIsTheInstruction :
    tables.wf 9 = true ∧ (Instr.mov .l (.imm 5) (.reg .eax)).wf tables = true ∧
    (encode tables (.mov .l (.imm 5) (.reg .eax))).map (containsText defaultBypassPattern) = some false ∧
    (Instr.inc .l (.reg .esp)).wf tables = true ∧
    (encode tables (.inc .l (.reg .esp))).map (containsText defaultBypassPattern) = some true := by decide

theorem witness_DecodedInstructionsAreWellFormed :
    decodeLine defaultParams tables "call printf".toList = .ok (.known (.call (.external "printf".toList))) := by
  decide

theorem witness_EveryPatternHasALiteral : (-2147483649 : Int) < -2147483648 ∧ 2147483647 < (2147483648 : Int) := by decide

theorem reset_wf : Memory.wf State.reset.mem = true := rfl

/-- A state that meets the invariant and steps. -/
theorem witness_EveryStepKeepsTheInvariant : Inv mMov ∧ ∃ t, step mMov = .next t := by
  refine ⟨⟨rfl, rfl, rfl, by decide, by decide, fun _ => by decide, nofun, ?_, coherent_oneLine (by decide)⟩, _, rfl⟩
  intro r hr i hk t ht
  simp only [mMov, oneLine, List.mem_cons, List.not_mem_nil, or_false] at hr
  subst hr
  injection hk with hk
  subst hk
  cases ht

/-- P1 loads by the contract, and a step leads on from there. -/
theorem witness_ReachedStatesKeepTheInvariantAndTheProgram :
    sumProgram.wf ∧ ∃ t, step (load State.reset sumProgram) = .next t ∧ Reaches (load State.reset sumProgram) t :=
  ⟨witness_LoadEstablishesTheInvariant, _, rfl, .tail (.refl _) rfl⟩

theorem witness_EqualAndZeroStayEqual : m0.flags.e = m0.flags.z ∧ ∃ t, step m0 = .next t := ⟨rfl, _, rfl⟩

def mPush (p : Params) : State := oneLine p "pushl $7" (.known (.push .l (.imm 7)))

/-- By default and under `run`, a step of push under `%esp` in which `SP` changes. -/
theorem witness_SpChangesOnlyThroughTheStackInstructions : ∀ p ∈ [defaultParams, espParams .run],
    (mPush p).status = .running ∧ Coherent (mPush p).params (mPush p).program ∧
    (∃ r, (mPush p).program.code[(mPush p).pc]? = some r) ∧
    containsText (mPush p).params.bypassPattern "%esp".toList = true ∧
    ∃ t, step (mPush p) = .next t ∧ t.cells.sp ≠ (mPush p).cells.sp := by
  simp only [List.mem_cons, List.not_mem_nil, or_false, forall_eq_or_imp, forall_eq]
  exact ⟨⟨rfl, coherent_oneLine (by decide), ⟨_, rfl⟩, by decide, _, rfl, by decide⟩,
    rfl, coherent_oneLine (by decide), ⟨_, rfl⟩, by decide, _, rfl, by decide⟩

def mSpacedEsp : State := oneLine (espParams .run) "movl $8, % esp" (.known (.mov .l (.imm 8) (.reg .esp)))

/-- The clause of `run`. -/
theorem witness_SpacedEspRuns : mSpacedEsp.status = .running ∧ Coherent mSpacedEsp.params mSpacedEsp.program ∧
    ∃ t, step mSpacedEsp = .next t ∧ t.cells.sp ≠ mSpacedEsp.cells.sp :=
  ⟨rfl, coherent_oneLine (by decide), _, rfl, by decide⟩

end Sys2Proof.Tests
end

/-! ## The invariant: what every step preserves and every load establishes -/

namespace Sys2Proof.Machine

/-! ### What every step preserves -/

/-- What neither a completed record nor a whole step changes or breaks: the parameters, the program store, the form and the
bounds of memory, and the agreement of Equal and Zero. -/
structure Preserves (s t : State) : Prop where
  params : t.params = s.params
  program : t.program = s.program
  wf : Memory.wf s.mem = true → Memory.wf t.mem = true
  below : memBelow s.params.capacity s.mem = true → memBelow s.params.capacity t.mem = true
  equal_zero : s.flags.e = s.flags.z → t.flags.e = t.flags.z

theorem Keeps.preserves {s t : State} (h : Keeps s t) : Preserves s t := by
  obtain ⟨⟨hparams, hprogram, -, -, -⟩, hwf, hbelow, hez⟩ := h
  exact ⟨hparams, hprogram, hwf, hbelow, hez⟩

/-- A completed record preserves all that and the status, and its only diagnostic is that of an unknown line (R103). -/
theorem execRecord_preserves {r : Record} {s u : State} (h : execRecord r s = .next u) :
    Preserves s u ∧ u.status = s.status ∧
      (u.diags = s.diags ∨ r.kind = .unknown ∧ u.diags = s.diags ++ [{ pc := s.pc, text := r.text }]) := by
  rcases execRecord_next h with ⟨i, -, hi⟩ | ⟨-, rfl⟩ | ⟨hk, -, rfl⟩
  · have hkeeps := (exec_keeps hi).1
    obtain ⟨-, -, hstatus, hdiags, -⟩ := hkeeps.same
    exact ⟨hkeeps.preserves, hstatus, .inl hdiags⟩
  · exact ⟨⟨rfl, rfl, id, id, id⟩, rfl, .inl rfl⟩
  · exact ⟨⟨rfl, rfl, id, id, id⟩, rfl, .inr ⟨hk, rfl⟩⟩

/-- A completed record at an index of the program leaves `pc` in `0 .. N`, if its target lies there (R29, R94). -/
theorem execRecord_pc_le {r : Record} {s u : State} (h : execRecord r s = .next u)
    (hpc : s.pc < s.program.code.length)
    (ht : ∀ i, r.kind = .known i → targetInRange s.program.code.length i) : u.pc ≤ s.program.code.length := by
  rcases execRecord_next h with ⟨i, hk, hi⟩ | ⟨-, rfl⟩ | ⟨-, -, rfl⟩
  · rcases (exec_keeps hi).2 with hnext | htarget | ⟨-, hret⟩
    · omega
    · exact ht i hk _ htarget
    · exact hret
  · exact hpc
  · exact hpc

theorem step_preserves {s t : State} (h : step s = .next t) : Preserves s t := by
  obtain ⟨-, r, -, ⟨u, hu, rfl⟩ | ⟨f, -, rfl⟩⟩ := step_cases h
  · obtain ⟨⟨hparams, hprogram, hwf, hbelow, hez⟩, -, -⟩ := execRecord_preserves hu
    exact ⟨hparams, hprogram, hwf, hbelow, hez⟩
  · exact ⟨rfl, rfl, id, id, id⟩

/-- The status with which a step or a load leaves a run that goes on or ends at `N` (R225, R221 step 6). -/
theorem endStatus_running {pc n : Nat} : (if pc = n then Status.halted else .running) = .running ↔ pc ≠ n := by
  split <;> simp [*]

theorem endStatus_halted {pc n : Nat} : (if pc = n then Status.halted else .running) = .halted ↔ pc = n := by
  split <;> simp [*]

/-- Where `pc` and the status agree with the program again, the invariant goes over to the next state. -/
theorem Inv.of_preserves {s t : State} (hs : Inv s) (k : Preserves s t) (hpc : t.pc ≤ s.program.code.length)
    (hrun : t.status = .running → t.pc < s.program.code.length)
    (hhalt : t.status = .halted → t.pc = s.program.code.length) : Inv t where
  mem_wf := k.wf hs.mem_wf
  mem_below := by rw [k.params]; exact k.below hs.mem_below
  equal_is_zero := k.equal_zero hs.equal_is_zero
  length_le := by rw [k.program]; exact hs.length_le
  pc_le := by rw [k.program]; exact hpc
  running_inside := by rw [k.program]; exact hrun
  halted_at_end := by rw [k.program]; exact hhalt
  targets := by rw [k.program]; exact hs.targets
  coherent := by rw [k.params, k.program]; exact hs.coherent

/-- Settles O57: `step_preserves` keeps all but `pc` and the status. A completed step leaves `pc` in `0 .. N` and halts exactly
at `N`; a fault leaves `pc` where it was. -/
theorem everyStepKeepsTheInvariant : Obligations.EveryStepKeepsTheInvariant := by
  unfold Obligations.EveryStepKeepsTheInvariant
  intro s t hs h
  obtain ⟨hrunning, r, hr, ⟨u, hu, ht⟩ | ⟨f, -, ht⟩⟩ := step_cases h
  · have hle : u.pc ≤ s.program.code.length :=
      execRecord_pc_le hu (hs.running_inside hrunning) (hs.targets r (List.mem_of_getElem? hr))
    obtain ⟨hkeep, hstatus, -⟩ := execRecord_preserves hu
    have hend : t.status = if u.pc = s.program.code.length then .halted else .running := by
      rw [ht, finishStep_status, hkeep.program, hstatus, hrunning]
    have hpc : t.pc = u.pc := by rw [ht, finishStep_pc]
    rw [← hpc] at hle hend
    exact hs.of_preserves (step_preserves h) hle
      (fun hrun => Nat.lt_of_le_of_ne hle (endStatus_running.1 (hend.symm.trans hrun)))
      (fun hhalt => endStatus_halted.1 (hend.symm.trans hhalt))
  · subst ht
    exact hs.of_preserves (step_preserves h) hs.pc_le nofun nofun

/-- Settles O58: one field of `step_preserves`. -/
theorem equalAndZeroStayEqual : Obligations.EqualAndZeroStayEqual := by
  unfold Obligations.EqualAndZeroStayEqual
  exact fun s t hez h => (step_preserves h).equal_zero hez

/-- Settles O46: the program and the parameters are fields of `step_preserves`. -/
theorem programStoreIsReadOnly : Obligations.ProgramStoreIsReadOnly := by
  unfold Obligations.ProgramStoreIsReadOnly
  exact fun s t h => ⟨(step_preserves h).program, (step_preserves h).params⟩

/-- Settles O45: a fault leaves the list, and of the completed records only an unknown line appends to it. -/
theorem diagnosticsOnlyGrow : Obligations.DiagnosticsOnlyGrow := by
  unfold Obligations.DiagnosticsOnlyGrow
  intro s t h
  obtain ⟨-, r, hr, ⟨u, hu, rfl⟩ | ⟨f, -, rfl⟩⟩ := step_cases h
  · obtain ⟨-, -, hsame | ⟨hk, hgrown⟩⟩ := execRecord_preserves hu
    · exact .inl hsame
    · exact .inr ⟨r, hr, hk, hgrown⟩
  · exact .inl rfl

/-- A record's outcome, which is never a refusal, always settles in a next state. -/
theorem settle_execRecord_next (r : Record) (s : State) : ∃ t, settle r s (execRecord r s) = .next t := by
  cases ho : execRecord r s with
  | next u => exact ⟨_, rfl⟩
  | fault f => exact ⟨_, rfl⟩
  | refused q => exact absurd ho (execRecord_not_refused r s q)

/-- Settles O42: a step that answers has found a record at `pc`, and a record found always settles in a next state. -/
theorem stepsHappenExactlyInRunning : Obligations.StepsHappenExactlyInRunning := by
  unfold Obligations.StepsHappenExactlyInRunning
  intro s
  constructor
  · rintro ⟨t, h⟩
    obtain ⟨hrunning, r, hr, -⟩ := step_cases h
    exact ⟨hrunning, (List.getElem?_eq_some_iff.1 hr).1⟩
  · rintro ⟨hrunning, hpc⟩
    rw [step_of_record hrunning (List.getElem?_eq_getElem hpc)]
    exact settle_execRecord_next _ s

/-! ### From a load on -/

/-- The reset state with no program, whatever memory it has, as long as it is not running. -/
theorem inv_withoutProgram (p : Params) {m : Memory} {st : Status} (hwf : Memory.wf m = true)
    (hbelow : memBelow p.capacity m = true) (hst : st ≠ .running) :
    Inv { State.resetWith p with mem := m, status := st } where
  mem_wf := hwf
  mem_below := hbelow
  equal_is_zero := rfl
  length_le := Nat.zero_le _
  pc_le := Nat.zero_le _
  running_inside h := absurd h hst
  halted_at_end _ := rfl
  targets _ hr := nomatch hr
  coherent _ hr := nomatch hr

/-- Settles O56: the reset state is the case of an empty memory and no program, halted at `pc = N = 0`. -/
theorem invariantHoldsAtReset : Obligations.InvariantHoldsAtReset := by
  unfold Obligations.InvariantHoldsAtReset
  exact inv_withoutProgram defaultParams (m := []) rfl rfl nofun

/-- The targets of an instruction decoded under tables that keep the contract of R222 lie in the program (R94). -/
theorem targetInRange_of_decodeLine {p : Params} {n : Nat} {tb : Tables} {line : Text} {i : Instr}
    (htb : tb.wf n = true) (h : decodeLine p tb line = .ok (.known i)) : targetInRange n i := by
  obtain ⟨-, -, _, _, _, -, -, hdec⟩ := decodeLine_known h
  intro t ht
  obtain ⟨e, he, het⟩ : ∃ e ∈ tb.textLabels, e.2 = t := by
    simpa [Target.wf] using (decodeOperands_ok hdec).2 _ ht
  exact het ▸ (Tables.wf_text htb he).2.1

/-- Every load that keeps the load port's contract gives the invariant, also a refused one. -/
theorem inv_load (s : State) {inp : LoadInput} (hinp : inp.wf) : Inv (load s inp) := by
  have hwf : Memory.wf (imageCells 0 inp.image) = true := wfFrom_imageCells _ 0 0 (Nat.le_refl 0)
  have hbelow : inp.image.length ≤ s.params.capacity → memBelow s.params.capacity (imageCells 0 inp.image) = true :=
    fun hfits => memBelow_imageCells _ 0 _ (by omega)
  rcases load_cases s inp with ⟨m, e, rfl | ⟨hfits, rfl⟩, hload⟩ | ⟨code, t, hlines, hfits, hcode, hentry, hload⟩
  · rw [hload]
    exact inv_withoutProgram s.params rfl rfl nofun
  · rw [hload]
    exact inv_withoutProgram s.params hwf (hbelow hfits) nofun
  · obtain ⟨htext, hdecoded⟩ := decodeLines_next hcode
    have hlength : code.length = inp.lines.length := by rw [← htext, List.length_map]
    have htables : inp.tables.wf code.length = true := hlength ▸ hinp
    have hpc : t ≤ code.length := (Tables.wf_text htables (mem_of_lookupName hentry)).2.1
    rw [hload]
    exact {
      mem_wf := hwf
      mem_below := hbelow hfits
      equal_is_zero := rfl
      length_le := hlength ▸ hlines
      pc_le := hpc
      running_inside := fun hrun => Nat.lt_of_le_of_ne hpc (endStatus_running.1 hrun)
      halted_at_end := endStatus_halted.1
      targets := fun r hr i hk => targetInRange_of_decodeLine htables (hk ▸ hdecoded r hr)
      coherent := hdecoded }

theorem load_params (s : State) (inp : LoadInput) : (load s inp).params = s.params := by
  rcases load_cases s inp with ⟨m, e, -, hload⟩ | ⟨code, t, -, -, -, -, hload⟩ <;> rw [hload] <;> rfl

/-- A property that every step keeps holds of every state reached from one that has it. -/
theorem Reaches.keeps {P : State → Prop} (hstep : ∀ t u, P t → StepsTo t u → P u) {s t : State} (h : Reaches s t)
    (hs : P s) : P t := by
  induction h with
  | refl => exact hs
  | tail _ hlast ih => exact hstep _ _ ih hlast

/-- Settles O59: the load establishes the invariant and every step keeps it, the program and the parameters. -/
theorem reachedStatesKeepTheInvariantAndTheProgram : Obligations.ReachedStatesKeepTheInvariantAndTheProgram := by
  unfold Obligations.ReachedStatesKeepTheInvariantAndTheProgram
  intro s inp t hinp hreach
  have hinv : Inv t := hreach.keeps everyStepKeepsTheInvariant (inv_load s hinp)
  have hprogram : t.program = (load s inp).program :=
    hreach.keeps (P := fun u => u.program = _) (fun _ _ ht h => (step_preserves h).program.trans ht) rfl
  have hparams : t.params = s.params :=
    hreach.keeps (P := fun u => u.params = _) (fun _ _ ht h => (step_preserves h).params.trans ht) (load_params s inp)
  exact ⟨hinv, hprogram, hparams⟩

/-- Settles O47: the load passes its size checks, decodes every line, and enters at the bound entry label. -/
theorem loadLeavesTheResetState : Obligations.LoadLeavesTheResetState := by
  unfold Obligations.LoadLeavesTheResetState
  intro s inp entry hlines himage hdecode hentry
  obtain ⟨code, hcode, htext, hdecoded⟩ := decodeLines_ok 0 hdecode
  have hlength : code.length = inp.lines.length := by rw [← htext, List.length_map]
  have hload : load s inp = { State.resetWith s.params with
      mem := imageCells 0 inp.image
      program := { code := code, tables := inp.tables, entry := inp.entry }
      pc := entry
      status := if entry = inp.lines.length then .halted else .running } := by
    rw [load_fits hlines himage, ← hlength]
    simp only [decodeProgram, resetWith_params, hcode]
    exact enterProgram_found hentry
  have hbytes : ∀ a, readByte (imageCells 0 inp.image) a = inp.image.getD a 0 := fun a => by
    rw [readByte_imageCells, if_pos (Nat.zero_le a), Nat.sub_zero]; rfl
  rw [hload]
  exact ⟨rfl, rfl, rfl, wfFrom_imageCells _ 0 0 (Nat.le_refl 0), hbytes, rfl, rfl, rfl, rfl, rfl, rfl, htext, hdecoded⟩

end Sys2Proof.Machine

/-! ## The register views -/

namespace Sys2Proof.Machine

/-- Settles O1: the table by evaluation; every view is in it and its spelling is read back. -/
theorem viewsAreThoseOfTheTable : Obligations.ViewsAreThoseOfTheTable := by
  unfold Obligations.ViewsAreThoseOfTheTable
  exact ⟨rfl, by decide, fun v => by cases v <;> decide, rfl, rfl, parseRegister_registerText⟩

/-- Settles O2: `getLsbD_readView` states it. -/
theorem viewReadZeroExtendsItsField : Obligations.ViewReadZeroExtendsItsField := by
  unfold Obligations.ViewReadZeroExtendsItsField
  exact getLsbD_readView

/-- Settles O3: `getLsbD_mergeView` on the view's own cell. -/
theorem viewWriteMergesIntoItsCell : Obligations.ViewWriteMergesIntoItsCell := by
  unfold Obligations.ViewWriteMergesIntoItsCell
  intro c v val
  refine ⟨fun i hi => ?_, fun s hs => getCell_writeView_other hs c val⟩
  rw [getCell_writeView, if_pos rfl]
  exact getLsbD_mergeView _ v val i hi

end Sys2Proof.Machine

/-! ## Frames: what an instruction leaves unchanged -/

namespace Sys2Proof.Machine

/-! ### The instructions that write one destination -/

/-- The declared size and the destination of an instruction that writes one destination and nothing else but flags and
`pc`. -/
def destOf : Instr → Option (Size × Dest)
  | .mov size _ d | .add size _ d | .sub size _ d | .or size _ d | .xor size _ d | .and size _ d => some (size, d)
  | .shl size _ d | .shr size _ d | .sar size _ d | .lea size _ d | .inc size d | .dec size d => some (size, d)
  | _ => none

theorem writtenSlots_of_destOf {i : Instr} {size : Size} {d : Dest} (hd : destOf i = some (size, d)) :
    writtenSlots i = destSlots d := by
  cases i <;> cases hd <;> rfl

/-- Everything such an instruction can do: it stores some value in its destination and sets flags and `pc`. -/
theorem exec_destOf_next {i : Instr} {s t : State} {size : Size} {d : Dest} (hd : destOf i = some (size, d))
    (h : exec i s = .next t) :
    ∃ v fl pc, t = { destStored s size d v with flags := fl, pc := pc } := by
  cases i with
  | mov =>
    cases hd
    obtain ⟨-, -, rfl⟩ := exec_mov_next h
    exact ⟨_, _, _, rfl⟩
  | add | sub | or | xor | and =>
    cases hd
    obtain ⟨-, -, rfl⟩ := aluHandler_ok (outcomeOf_next h)
    exact ⟨_, _, _, rfl⟩
  | inc | dec =>
    cases hd
    obtain ⟨-, rfl⟩ := stepHandler_ok (outcomeOf_next h)
    exact ⟨_, _, _, rfl⟩
  | shl | shr | sar =>
    cases hd
    obtain ⟨-, -, -, rfl⟩ := shiftHandler_ok (outcomeOf_next h)
    exact ⟨_, _, _, rfl⟩
  | lea =>
    cases hd
    obtain ⟨-, rfl⟩ := exec_lea_next h
    exact ⟨_, _, _, rfl⟩
  | _ => cases hd

/-- R25 on the cell itself: the bits outside the view's field are kept. -/
theorem getLsbD_viewStored_outside {v : View} {i : Nat} (hi : i < 32)
    (hout : ¬ (offsetOf v ≤ i ∧ i < offsetOf v + widthOf v)) (c : Cells) (val : Word) :
    (getCell (viewStored c v val) (slotOf v)).getLsbD i = (getCell c (slotOf v)).getLsbD i := by
  rw [← writeView_eq_viewStored, getCell_writeView, if_pos rfl, getLsbD_mergeView _ _ _ _ hi, if_neg hout]

/-- A store in a destination changes nothing else, whatever flags and `pc` go with it. -/
theorem onlyDest_destStored {s : State} (hwf : Memory.wf s.mem = true) (size : Size) (d : Dest) (v : Word) (fl : Flags)
    (pc : Nat) : OnlyDest s { destStored s size d v with flags := fl, pc := pc } size d := by
  refine ⟨destStored_sameElse s size d v, ?_⟩
  cases d with
  | reg view =>
    exact ⟨fun _ hslot => getCell_viewStored_other hslot _ _, fun _ hi hout => getLsbD_viewStored_outside hi hout _ _,
      fun _ => rfl⟩
  | mem m => exact ⟨rfl, sameOutside_memStored hwf _ _ _⟩

/-- Settles O32: each of the twelve stores in its destination, and such a store has the frame. -/
theorem destinationWritersChangeOnlyTheDestination : Obligations.DestinationWritersChangeOnlyTheDestination := by
  unfold Obligations.DestinationWritersChangeOnlyTheDestination
  intro s t size src m dst hwf i hi h
  have hd : destOf i = some (size, dst) := by
    simp only [List.mem_cons, List.not_mem_nil, or_false] at hi
    rcases hi with rfl | rfl | rfl | rfl | rfl | rfl | rfl | rfl | rfl | rfl | rfl | rfl <;> rfl
  obtain ⟨v, fl, pc, rfl⟩ := exec_destOf_next hd h
  exact onlyDest_destStored hwf size dst v fl pc

/-! ### mul and div -/

/-- Everything `mul` and `div` can do: they write the accumulator pair, flags and `pc`. -/
theorem exec_mulDiv_next {i : Instr} {s t : State} {size : Size} {src : Operand}
    (hi : i = .mul size src ∨ i = .div size src) (h : exec i s = .next t) :
    ∃ lo hi fl pc, t = { s with cells := pairStored s.cells size lo hi, flags := fl, pc := pc } := by
  rcases hi with rfl | rfl
  · obtain ⟨-, rfl⟩ := exec_mul_next h
    exact ⟨_, _, _, _, rfl⟩
  · obtain ⟨-, -, -, rfl⟩ := exec_div_next h
    exact ⟨_, _, _, _, rfl⟩

/-- Below size 4 the pair's views lie in bits 15:0 of A and D. -/
theorem getLsbD_pairStored_upper {size : Size} (hsize : size ≠ .l) {n : Nat} (hn : 16 ≤ n) (c : Cells) (lo hi : Word) :
    (pairStored c size lo hi).a.getLsbD n = c.a.getLsbD n ∧ (pairStored c size lo hi).d.getLsbD n = c.d.getLsbD n := by
  have h8 : ¬ n < 8 := by omega
  have h16 : ¬ n < 16 := by omega
  cases size with
  | b => simp [pairStored, viewStored, getLsbD_withHigh8, getLsbD_withLow8, h8, h16]
  | w => simp [pairStored, viewStored, getLsbD_withLow16, h16]
  | l => exact absurd rfl hsize

/-- Settles O33: both only write the accumulator pair. -/
theorem mulDivChangeOnlyTheAccumulatorPair : Obligations.MulDivChangeOnlyTheAccumulatorPair := by
  unfold Obligations.MulDivChangeOnlyTheAccumulatorPair
  intro s t size src i hi h
  obtain ⟨lo, hi, fl, pc, rfl⟩ := exec_mulDiv_next (by simpa using hi) h
  refine ⟨sameElse_refl s, fun _ => rfl, fun slot ha hd => getCell_pairStored_other ha hd _ _ _ _, ?_, ?_⟩
  · rintro rfl
    exact pairStored_byte_d _ _ _
  · exact fun hsize n hn _ => getLsbD_pairStored_upper hsize hn _ _ _

/-! ### The stack instructions -/

theorem sameOutside_dwordStored {m : Memory} (hwf : Memory.wf m = true) (a : Nat) (v : Word) :
    SameOutside m (dwordStored m a v) a 4 := sameOutside_memStored hwf .l a v

/-- Settles O34, instruction by instruction: `SP`, the slot or the destination, and nothing else. -/
theorem stackInstructionsChangeOnlySpAndTheirSlot : Obligations.StackInstructionsChangeOnlySpAndTheirSlot := by
  unfold Obligations.StackInstructionsChangeOnlySpAndTheirSlot
  intro s t size src dst k hwf
  refine ⟨fun i hi h => ?_, fun h => ?_, fun h => ?_, fun h => ?_⟩
  · simp only [List.mem_cons, List.not_mem_nil, or_false] at hi
    rcases hi with rfl | rfl
    · obtain ⟨-, -, rfl⟩ := exec_push_next h
      exact ⟨sameElse_refl s, fun _ hslot => getCell_withSp hslot _ _, sameOutside_dwordStored hwf _ _⟩
    · obtain ⟨-, rfl⟩ := exec_call_internal_next h
      exact ⟨sameElse_refl s, fun _ hslot => getCell_withSp hslot _ _, sameOutside_dwordStored hwf _ _⟩
  · obtain ⟨-, rfl⟩ := exec_call_internal_next h
    rfl
  · obtain ⟨-, -, rfl⟩ := exec_pop_next h
    refine ⟨destStored_sameElse s size dst _, ?_⟩
    cases dst with
    | reg v =>
      refine ⟨fun slot hv hsp => ?_, fun hsp i hi hout => ?_, fun _ => rfl⟩
      · rw [getCell_withSp hsp]
        exact getCell_viewStored_other hv _ _
      · rw [getCell_withSp hsp]
        exact getLsbD_viewStored_outside hi hout _ _
    | mem m => exact ⟨fun slot hsp => getCell_withSp hsp _ _, sameOutside_memStored hwf _ _ _⟩
  · obtain ⟨-, rfl⟩ := exec_ret_next h
    exact ⟨sameElse_refl s, rfl, fun _ => rfl, fun _ hslot => getCell_withSp hslot _ _⟩

/-! ### All instructions -/

theorem getCell_destStored_other {slot : Slot} {d : Dest} (h : slot ∉ destSlots d) (s : State) (size : Size) (v : Word) :
    getCell (destStored s size d v).cells slot = getCell s.cells slot := by
  cases d with
  | reg view => exact getCell_viewStored_other (by simpa [destSlots] using h) _ _
  | mem m => rfl

theorem getCell_withC {slot : Slot} (h : slot ≠ .c) (c : Cells) (w : Word) :
    getCell { c with c := w } slot = getCell c slot := getCell_setCell_other h c w

/-- The cells that `mul` and `div` do not use implicitly. -/
theorem getCell_pairStored_unused {slot : Slot} {size : Size} (h : slot ∉ if size = .b then [Slot.a] else [.a, .d])
    (c : Cells) (lo hi : Word) : getCell (pairStored c size lo hi) slot = getCell c slot := by
  have ha : slot ≠ .a := by rintro rfl; split at h <;> simp at h
  by_cases hd : slot = .d
  · subst hd
    cases size with
    | b => exact pairStored_byte_d _ _ _
    | w | l => simp at h
  · exact getCell_pairStored_other ha hd _ _ _ _

/-- Settles O37, along the lists of R27. -/
theorem onlyNamedAndImplicitCellsAreWritten : Obligations.OnlyNamedAndImplicitCellsAreWritten := by
  unfold Obligations.OnlyNamedAndImplicitCellsAreWritten
  intro s t i slot h hslot
  cases hd : destOf i with
  | some p =>
    obtain ⟨size, d⟩ := p
    obtain ⟨v, fl, pc, rfl⟩ := exec_destOf_next hd h
    exact getCell_destStored_other (writtenSlots_of_destOf hd ▸ hslot) s size v
  | none =>
    cases i with
    | mul size src | div size src =>
      obtain ⟨lo, hi, fl, pc, rfl⟩ := exec_mulDiv_next (size := size) (src := src) (by simp) h
      exact getCell_pairStored_unused hslot _ _ _
    | push =>
      obtain ⟨-, -, rfl⟩ := exec_push_next h
      exact getCell_withSp (by simpa [writtenSlots] using hslot) _ _
    | pop size d =>
      obtain ⟨-, -, rfl⟩ := exec_pop_next h
      obtain ⟨hsp, hd⟩ : slot ≠ .sp ∧ slot ∉ destSlots d := by simpa [writtenSlots] using hslot
      exact (getCell_withSp hsp _ _).trans (getCell_destStored_other hd _ _ _)
    | test | cmp =>
      obtain rfl := compareHandler_ok (outcomeOf_next h)
      rfl
    | jmp | int =>
      cases h
      rfl
    | jl | jle | je | jge | jg | ja | jae | jne | jz | jnz =>
      obtain rfl := branch_next h
      rfl
    | loop =>
      obtain rfl := exec_loop_next h
      exact getCell_withC (by simpa [writtenSlots] using hslot) _ _
    | call target =>
      cases target with
      | internal =>
        obtain ⟨-, rfl⟩ := exec_call_internal_next h
        exact getCell_withSp (by simpa [writtenSlots] using hslot) _ _
      | external =>
        cases h
        rfl
    | ret =>
      obtain ⟨-, rfl⟩ := exec_ret_next h
      exact getCell_withSp (by simpa [writtenSlots] using hslot) _ _
    | _ => cases hd

end Sys2Proof.Machine

/-! ## Memory access (R51 to R54) -/

namespace Sys2Proof.Machine

/-- The model's recursive read is the sum that R51 writes. -/
theorem readLE_eq_sum (m : Memory) (a n : Nat) :
    readLE m a n = ∑ i ∈ Finset.range n, (readByte m (a + i)).toNat * 2 ^ (8 * i) := by
  induction n generalizing a with
  | zero => rfl
  | succ n ih =>
    rw [readLE, ih, Finset.sum_range_succ', Finset.mul_sum, Nat.add_comm]
    congr 1
    · refine Finset.sum_congr rfl fun i _ => ?_
      rw [Nat.add_assoc, Nat.add_comm 1 i]
      ring
    · simp

/-- A read of at most 4 bytes fits a `bits32` (R51), so `memRead` gives it whole. -/
theorem toNat_ofNat_readLE (m : Memory) (a : Nat) {n : Nat} (hn : n ≤ 4) :
    (BitVec.ofNat 32 (readLE m a n)).toNat = readLE m a n := by
  have hlt : readLE m a n < 2 ^ 32 := (readLE_lt m a n).trans_le (Nat.pow_le_pow_right (n := 256) (by decide) hn)
  rw [BitVec.toNat_ofNat, Nat.mod_eq_of_lt hlt]

/-- Bytes that are the low bytes of a value read as the value truncated: each byte is a digit base 256. -/
theorem readLE_of_bytes {m : Memory} {a n : Nat} {v : Word}
    (h : ∀ i, i < n → readByte m (a + i) = (v >>> (8 * i)).setWidth 8) : readLE m a n = v.toNat % 256 ^ n := by
  induction n generalizing a v with
  | zero => simp [readLE, Nat.mod_one]
  | succ n ih =>
    have hlow : (readByte m a).toNat = v.toNat % 256 := by simpa using congrArg BitVec.toNat (h 0 (by omega))
    have hrest : readLE m (a + 1) n = (v >>> 8).toNat % 256 ^ n := by
      refine ih fun i hi => ?_
      rw [← BitVec.shiftRight_add, Nat.add_assoc, Nat.add_comm 1 i, h (i + 1) (by omega), Nat.mul_succ, Nat.add_comm 8]
    rw [readLE, hlow, hrest, BitVec.toNat_ushiftRight, Nat.shiftRight_eq_div_pow, Nat.pow_succ' (m := 256),
      Nat.mod_mul]

/-- R54: a read of the first `k` of the `n` bytes just written gives the value truncated to `k` bytes. -/
theorem readLE_writeLE {m : Memory} (h : Memory.wf m = true) (a : Nat) {k n : Nat} (hk : k ≤ n) (v : Word) :
    readLE (writeLE m a n v) a k = v.toNat % 256 ^ k := by
  refine readLE_of_bytes fun i hi => ?_
  rw [readByte_writeLE h, if_pos (by omega), Nat.add_sub_cancel_left]

/-- R54 at the named operations: the read answers, with the truncated value. -/
theorem memRead_after_memWrite {s t : State} {addr : Word} {n : Nat} {v : Word} (hwf : Memory.wf s.mem = true)
    (h : memWrite s addr n v = .ok t) {k : Nat} (hk : k ≤ n) (h4 : k ≤ 4) :
    ∃ w : Word, memRead t addr k = .ok w ∧ w.toNat = v.toNat % 256 ^ k := by
  obtain ⟨hb, rfl⟩ := memWrite_ok h
  refine ⟨_, memRead_inBounds ((Nat.add_le_add_left hk _).trans hb), ?_⟩
  rw [toNat_ofNat_readLE _ _ h4, readLE_writeLE hwf _ hk]

/-- Settles O4: the read is `readLE`, which is the sum and, at these widths, is not truncated. -/
theorem memReadIsTheLittleEndianSum : Obligations.MemReadIsTheLittleEndianSum := by
  unfold Obligations.MemReadIsTheLittleEndianSum
  intro s addr n hn
  refine ⟨fun hb => ⟨_, memRead_inBounds hb, ?_⟩, fun hb => memRead_outOfBounds (by omega)⟩
  rw [toNat_ofNat_readLE _ _ (by omega), readLE_eq_sum]

/-- Settles O5: `readByte_writeLE` gives every byte after the write, inside the range and outside it. -/
theorem memWriteStoresTheLowBytes : Obligations.MemWriteStoresTheLowBytes := by
  unfold Obligations.MemWriteStoresTheLowBytes
  intro s addr n v hwf _
  refine ⟨fun hb => ⟨_, memWrite_inBounds v hb, wf_writeLE hwf _ _ _, fun i hi => ?_, fun x hx => ?_⟩,
    fun hb => memWrite_outOfBounds v (by omega)⟩
  · rw [readByte_writeLE hwf, if_pos (by omega), Nat.add_sub_cancel_left, setWidth8_shift]
  · rw [readByte_writeLE hwf, if_neg (by omega)]

/-- Settles O7: both reads take the first bytes of those written, all `n` of them and one. -/
theorem readAfterWriteIsTruncation : Obligations.ReadAfterWriteIsTruncation := by
  unfold Obligations.ReadAfterWriteIsTruncation
  intro s t addr n v hwf hn h
  rw [Nat.pow_mul]
  exact ⟨memRead_after_memWrite hwf h (Nat.le_refl n) (by omega),
    memRead_after_memWrite hwf h (k := 1) (by omega) (by omega)⟩

/-- Settles O6: the equations of the two operations on either side of the bound. -/
theorem accessOutsideMemoryRaisesOutOfBounds : Obligations.AccessOutsideMemoryRaisesOutOfBounds := by
  unfold Obligations.AccessOutsideMemoryRaisesOutOfBounds
  intro s addr n v
  exact ⟨fun hb => ⟨⟨_, memRead_inBounds hb⟩, _, memWrite_inBounds v hb⟩,
    fun hb => ⟨memRead_outOfBounds hb, memWrite_outOfBounds v hb⟩⟩

end Sys2Proof.Machine

/-! ## Encoding: what the decoder reads, and what the encoder writes (R70 to R94) -/

namespace Sys2Proof

open Sys2Proof.Machine

/-! ### A line from its parts -/

/-- R102: a line that shows the pattern is not examined further. -/
theorem decodeLine_bypassed {p : Params} {line : Text} (tb : Tables) (h : containsText p.bypassPattern line = true) :
    decodeLine p tb line = .ok .bypassed := by
  rw [decodeLine, if_pos h]

/-- A line without the pattern decodes to what its mnemonic token and its operand tokens say, where each operand token stands
in it as it is. -/
theorem decodeLine_of_parts {p : Params} {tb : Tables} {line : Text} {op : Op} {size : Size} {tokens : List Text} {i : Instr}
    (hb : containsText p.bypassPattern line = false) (hm : classify (mnemonicToken line) = .known op size)
    (ht : operandTokens (operandText line) = .ok tokens) (hl : ∀ t ∈ tokens, t <:+: line)
    (hd : decodeOperands tb op size tokens = .ok i) : decodeLine p tb line = .ok (.known i) := by
  have hk : kindOf p i = .ok (.known i) := kindOf_shown hl hd hb
  simp [decodeLine, decodeUnbypassed, hb, hm, ht, liftCheck, hd, hk]

/-- The encoder's line is split into the mnemonic token and the operand tokens it was made of. -/
theorem encode_parts {tb : Tables} {i : Instr} {tokens : List Text} {line : Text} (ht : encodeTokens tb i = some tokens)
    (hot : ∀ t ∈ tokens, OneToken t) (hl : encode tb i = some line) :
    mnemonicToken line = mnemonicText i ∧ operandTokens (operandText line) = .ok tokens ∧ ∀ t ∈ tokens, t <:+: line := by
  rw [encode, ht, Option.map_some, Option.some_inj] at hl
  subst hl
  obtain ⟨hm, ho, hm₀, ho₀⟩ := line_parts (mnemonicText_plain i) (mnemonicText_ne_nil i) (joinTokens tokens)
  cases tokens with
  | nil => exact ⟨hm₀, congrArg operandTokens ho₀, nofun⟩
  | cons t ts =>
    refine ⟨hm, (congrArg operandTokens ho).trans (operandTokens_joinTokens (List.cons_ne_nil t ts) hot), fun t' h => ?_⟩
    exact (infix_joinTokens h).trans ((List.suffix_cons ' ' _).trans (List.suffix_append _ _)).isInfix

/-- The encoder spells every well-formed instruction, and a line it writes that does not show the pattern reads back. -/
theorem decodeLine_encode (p : Params) {n : Nat} {tb : Tables} {i : Instr} (ht : tb.wf n = true) (hi : i.wf tb = true) :
    ∃ line, encode tb i = some line ∧
      (containsText p.bypassPattern line = false → decodeLine p tb line = .ok (.known i)) := by
  obtain ⟨tokens, he, hot, hd⟩ := encodeTokens_spec ht hi
  obtain ⟨line, hl⟩ : ∃ line, encode tb i = some line := ⟨_, by rw [encode, he, Option.map_some]⟩
  obtain ⟨hm, hr, hs⟩ := encode_parts he hot hl
  have hc : classify (mnemonicToken line) = .known (opOf i) (declaredSize i) := by rw [hm, classify_mnemonicText]
  exact ⟨line, hl, fun hb => decodeLine_of_parts hb hc hr hs hd⟩

/-- Settles O54: the encoder's line reads back, and the pattern alone decides whether it is bypassed. -/
theorem decodeOfEncodeIsTheInstruction : Obligations.DecodeOfEncodeIsTheInstruction := by
  unfold Obligations.DecodeOfEncodeIsTheInstruction
  intro p n tb i ht hi
  obtain ⟨line, he, hk⟩ := decodeLine_encode p ht hi
  exact ⟨line, he, hk, decodeLine_bypassed tb⟩

/-! ### Literals -/

/-- R79: outside the range a literal is refused. -/
theorem literalWord_outOfRange {v : Int} (h : v < -2147483648 ∨ 2147483647 < v) : literalWord v = .error .literalRange := by
  rw [literalWord, if_neg (by omega)]

/-- Settles O53: the literal writes the pattern's signed value. -/
theorem everyPatternHasALiteral : Obligations.EveryPatternHasALiteral := by
  unfold Obligations.EveryPatternHasALiteral
  exact ⟨fun k => ⟨k.toInt, parseLiteral_literalText k, literalWord_toInt k, rfl⟩, fun _ => literalWord_outOfRange⟩

/-! ### Decoded instructions -/

/-- Settles O55: a line that decodes to an instruction has had its operand tokens read by its mnemonic's format, which gives
only well-formed instructions. -/
theorem decodedInstructionsAreWellFormed : Obligations.DecodedInstructionsAreWellFormed := by
  unfold Obligations.DecodedInstructionsAreWellFormed
  intro p tb line i h
  obtain ⟨-, -, op, size, tokens, -, -, hd⟩ := decodeLine_known h
  exact decodeOperands_wf hd

/-- Settles O51: the decoder evaluated on each line. -/
theorem sampleLinesDecodeAsTheSpecSays : Obligations.SampleLinesDecodeAsTheSpecSays := by
  unfold Obligations.SampleLinesDecodeAsTheSpecSays
  decide

/-! ### Mnemonics -/

theorem mem_allOps (op : Op) : op ∈ allOps := by cases op <;> decide

/-- No two mnemonics are spelled alike: each spelling is classified as its own mnemonic. -/
theorem spelling_injective : Function.Injective spelling := by
  intro op op' h
  have hc : MnemonicToken.known op .l = .known op' .l := by
    rw [← classify_spelling_alone, ← classify_spelling_alone, h]
  injection hc

/-- Settles O52: the two lists by evaluation; the spellings differ because the mnemonics do, and the classification is that of
`classify_spelling`. -/
theorem suffixesGiveTheDeclaredSize : Obligations.SuffixesGiveTheDeclaredSize := by
  unfold Obligations.SuffixesGiveTheDeclaredSize
  have distinct : allOps.Nodup := by decide
  exact ⟨rfl, rfl, mem_allOps, distinct.map spelling_injective,
    fun op => ⟨classify_spelling_alone op, classify_spelling op⟩⟩

end Sys2Proof

/-! ## The operand resolver (R106 to R110) -/

namespace Sys2Proof.Machine

/-- R106: the sum of base, scaled index and displacement, taken modulo 2^32. -/
theorem toNat_effectiveAddress (c : Cells) (m : MemRef) :
    (effectiveAddress c m).toNat = ((addressPart c m.base).toNat + (addressPart c m.index).toNat * factorOf m.scale +
      m.disp.toNat) % 2 ^ 32 := by
  simp only [effectiveAddress, BitVec.toNat_add, BitVec.toNat_mul, BitVec.toNat_ofNat, Nat.mul_mod_mod, Nat.mod_add_mod,
    Nat.add_mod_mod]

@[simp] theorem toNat_addressPart_none (c : Cells) : (addressPart c none).toNat = 0 := rfl

@[simp] theorem addressPart_some (c : Cells) (v : View) : addressPart c (some v) = viewValue c v :=
  readView_eq_viewValue c v

/-- Settles O8: the three forms of `toNat_effectiveAddress`, an absent register counting 0. -/
theorem effectiveAddressWrapsModulo32Bits : Obligations.EffectiveAddressWrapsModulo32Bits := by
  unfold Obligations.EffectiveAddressWrapsModulo32Bits
  intro c b i sc d
  refine ⟨?_, ?_, ?_⟩ <;> rw [toNat_effectiveAddress]
  · simp only [toNat_addressPart_none, Nat.zero_mul, Nat.zero_add]
    exact Nat.mod_eq_of_lt d.isLt
  · simp only [addressPart_some, toNat_addressPart_none, Nat.zero_mul, Nat.add_zero]
  · simp only [addressPart_some]

/-- Settles O9: `readOp_readable` names the value read, and at a narrow size it is the sign
extension of the bytes. -/
theorem operandReadExtendsByKind : Obligations.OperandReadExtendsByKind := by
  unfold Obligations.OperandReadExtendsByKind
  intro s size
  refine ⟨fun v => readOp_readable (readable_reg s size v), fun k => readOp_readable (readable_imm s size k),
    fun m hm => ⟨_, readOp_readable hm, ?_⟩, fun m hm => readOp_unreadable hm⟩
  cases size with
  | b => exact BitVec.toInt_signExtend_of_le (by decide)
  | w => exact BitVec.toInt_signExtend_of_le (by decide)
  | l => rfl

/-- Settles O10: the equations of `writeOp` on either side of the bound. -/
theorem operandWriteTruncatesByKind : Obligations.OperandWriteTruncatesByKind := by
  unfold Obligations.OperandWriteTruncatesByKind
  intro s size val
  exact ⟨fun v => writeOp_writable val (writable_reg s size v), fun _ hm => writeOp_writable (d := .mem _) val hm,
    fun _ hm => writeOp_unwritable val hm⟩

end Sys2Proof.Machine

/-! ## Control instructions and flags (R30, R104) -/

namespace Sys2Proof.Machine

/-! ### Instructions that store nothing -/

/-- Everything a control instruction without an implicit cell can do: it sets `pc`. -/
theorem exec_pcOnly_next {i : Instr} {s t : State} (hc : isDataOp (opOf i) = false) (hw : writtenSlots i = [])
    (h : exec i s = .next t) : ∃ pc, t = { s with pc := pc } := by
  cases i with
  | jmp | int =>
    cases h
    exact ⟨_, rfl⟩
  | jl | jle | je | jge | jg | ja | jae | jne | jz | jnz => exact ⟨_, branch_next h⟩
  | call target =>
    cases target with
    | internal => cases hw
    | external =>
      cases h
      exact ⟨_, rfl⟩
  | loop | ret => cases hw
  | _ => cases hc

/-- Everything test and cmp can do: they set flags and go on. -/
theorem exec_compare_next {i : Instr} {s t : State} {size : Size} {src dst : Operand}
    (hi : i = .test size src dst ∨ i = .cmp size src dst) (h : exec i s = .next t) :
    ∃ fl, t = { s with flags := fl, pc := s.pc + 1 } := by
  rcases hi with rfl | rfl
  · exact ⟨_, compareHandler_ok (outcomeOf_next h)⟩
  · exact ⟨_, compareHandler_ok (outcomeOf_next h)⟩

/-- Settles O35: the comparisons set flags and `pc`, loop sets `ecx` and `pc`, the others set `pc`. -/
theorem comparesAndJumpsStoreNothing : Obligations.ComparesAndJumpsStoreNothing := by
  unfold Obligations.ComparesAndJumpsStoreNothing
  intro s t size a b k name imm
  refine ⟨fun i hi h => ?_, fun h => ?_, fun i hi h => ?_⟩
  · obtain ⟨fl, rfl⟩ := exec_compare_next (by simpa using hi) h
    exact ⟨sameElse_refl s, rfl, fun _ => rfl, rfl⟩
  · obtain rfl := exec_loop_next h
    exact ⟨sameElse_refl s, rfl, fun _ => rfl, fun _ hslot => getCell_withC hslot _ _⟩
  · obtain ⟨hcontrol, hslots⟩ : isDataOp (opOf i) = false ∧ writtenSlots i = [] := by
      simp only [List.mem_cons, List.not_mem_nil, or_false] at hi
      rcases hi with rfl | rfl | rfl | rfl | rfl | rfl | rfl | rfl | rfl | rfl | rfl | rfl | rfl <;> exact ⟨rfl, rfl⟩
    obtain ⟨pc, rfl⟩ := exec_pcOnly_next hcontrol hslots h
    exact ⟨sameElse_refl s, rfl, rfl, fun _ => rfl⟩

/-! ### What each instruction does to the flags -/

theorem exec_control_flags {i : Instr} {s t : State} (hc : isDataOp (opOf i) = false) (h : exec i s = .next t) :
    t.flags = s.flags := by
  by_cases hw : writtenSlots i = []
  · obtain ⟨pc, rfl⟩ := exec_pcOnly_next hc hw h
    rfl
  · cases i with
    | loop =>
      obtain rfl := exec_loop_next h
      rfl
    | ret =>
      obtain ⟨-, rfl⟩ := exec_ret_next h
      rfl
    | call target =>
      cases target with
      | internal =>
        obtain ⟨-, rfl⟩ := exec_call_internal_next h
        rfl
      | external => exact absurd rfl hw
    | jmp | jl | jle | je | jge | jg | ja | jae | jne | jz | jnz | int => exact absurd rfl hw
    | _ => cases hc

theorem exec_plainData_flags {i : Instr} {s t : State} (hp : opOf i ∈ plainDataOps) (h : exec i s = .next t) :
    t.flags = flagsAfter (opOf i) s := by
  cases i with
  | mov =>
    obtain ⟨-, -, rfl⟩ := exec_mov_next h
    rfl
  | add | sub | or | xor | and =>
    obtain ⟨-, -, rfl⟩ := aluHandler_ok (outcomeOf_next h)
    rfl
  | shl | shr | sar =>
    obtain ⟨-, -, -, rfl⟩ := shiftHandler_ok (outcomeOf_next h)
    rfl
  | lea =>
    obtain ⟨-, rfl⟩ := exec_lea_next h
    rfl
  | mul =>
    obtain ⟨-, rfl⟩ := exec_mul_next h
    rfl
  | div =>
    obtain ⟨-, -, -, rfl⟩ := exec_div_next h
    rfl
  | push =>
    obtain ⟨-, -, rfl⟩ := exec_push_next h
    rfl
  | pop =>
    obtain ⟨-, -, rfl⟩ := exec_pop_next h
    rfl
  | _ => simp [opOf, plainDataOps] at hp

/-- R126, R127, R160: three producers say only whether their result is 0. -/
theorem exec_zeroProducer_flags {i : Instr} {s t : State} (hp : opOf i ∈ [Op.inc, .dec, .test])
    (h : exec i s = .next t) : ∃ r, t.flags = zeroOnly r := by
  cases i with
  | inc | dec =>
    obtain ⟨-, rfl⟩ := stepHandler_ok (outcomeOf_next h)
    exact ⟨_, rfl⟩
  | test =>
    obtain rfl := compareHandler_ok (outcomeOf_next h)
    exact ⟨_, rfl⟩
  | _ => simp [opOf] at hp

/-- R161: cmp's Equal and Zero are the same comparison. -/
theorem exec_cmp_equal_zero {i : Instr} {s t : State} (hp : opOf i = .cmp) (h : exec i s = .next t) :
    t.flags.e = t.flags.z := by
  cases i with
  | cmp =>
    obtain rfl := compareHandler_ok (outcomeOf_next h)
    rfl
  | _ => cases hp

/-- Settles O36: one lemma per class of mnemonics. -/
theorem flagsChangeOnlyAsTheClearAndTheProducersSay : Obligations.FlagsChangeOnlyAsTheClearAndTheProducersSay := by
  unfold Obligations.FlagsChangeOnlyAsTheClearAndTheProducersSay
  intro s t i h
  refine ⟨fun hc => exec_control_flags hc h, fun hp => exec_plainData_flags hp h, fun hp => ?_, fun hp => ?_⟩
  · obtain ⟨r, hr⟩ := exec_zeroProducer_flags hp h
    exact ⟨_, hr⟩
  · have hsplit : opOf i ∈ [Op.inc, .dec, .test] ∨ opOf i = .cmp := by simpa [or_assoc] using hp
    rcases hsplit with hzero | hcmp
    · obtain ⟨r, hr⟩ := exec_zeroProducer_flags hzero h
      rw [hr]
      rfl
    · exact exec_cmp_equal_zero hcmp h

end Sys2Proof.Machine

/-! ## The step around the handlers (R101 to R103, R116, R225) -/

namespace Sys2Proof.Machine

/-! ### A record's effect and its event, by its kind -/

theorem execRecord_known {r : Record} {i : Instr} (hk : r.kind = .known i) (s : State) : execRecord r s = exec i s := by
  rw [execRecord, hk]

theorem execRecord_bypassed {r : Record} (hk : r.kind = .bypassed) (s : State) : execRecord r s = .next (advance s) := by
  rw [execRecord, hk, execBypassed]

theorem execRecord_unknown_skip {r : Record} {s : State} (hk : r.kind = .unknown)
    (hp : s.params.unknownPolicy = .skip) :
    execRecord r s = .next (advance { s with diags := s.diags ++ [{ pc := s.pc, text := r.text }] }) := by
  rw [execRecord, hk, execUnknown, hp]

theorem execRecord_unknown_fault {r : Record} {s : State} (hk : r.kind = .unknown)
    (hp : s.params.unknownPolicy = .fault) : execRecord r s = .fault (.unknownMnemonic s.pc) := by
  rw [execRecord, hk, execUnknown, hp]

theorem traceEventOf_known {r : Record} {i : Instr} (hk : r.kind = .known i) (pc : Nat) :
    traceEventOf pc r = { pc := pc, kind := instrTraceKind i, hasMem := (operandsOf i).any isMem, text := r.text } := by
  rw [traceEventOf, traceKindOf, hasMem, hk]

theorem traceEventOf_bypassed {r : Record} (hk : r.kind = .bypassed) (pc : Nat) :
    traceEventOf pc r = { pc := pc, kind := .bypassed, hasMem := false, text := r.text } := by
  rw [traceEventOf, traceKindOf, hasMem, hk]

theorem traceEventOf_unknown {r : Record} (hk : r.kind = .unknown) (pc : Nat) :
    traceEventOf pc r = { pc := pc, kind := .unknown, hasMem := false, text := r.text } := by
  rw [traceEventOf, traceKindOf, hasMem, hk]

/-! ### The step at a record whose outcome is known -/

theorem step_of_next {s u : State} {r : Record} (hs : s.status = .running) (hr : s.program.code[s.pc]? = some r)
    (hu : execRecord r s = .next u) : step s = .next (finishStep (traceEventOf s.pc r) u) := by
  rw [step_of_record hs hr, hu, settle]

theorem step_of_fault {s : State} {r : Record} {f : Fault} (hs : s.status = .running)
    (hr : s.program.code[s.pc]? = some r) (hf : execRecord r s = .fault f) : step s = .next (enterFault s r.text f) := by
  rw [step_of_record hs hr, hf, settle]

/-- Settles O38: the record's kind is what its line decodes to, and its effect is then the instruction's. -/
theorem stepRunsTheDecodedInstruction : Obligations.StepRunsTheDecodedInstruction := by
  unfold Obligations.StepRunsTheDecodedInstruction
  intro s r i hs hc hr hd
  have hk : r.kind = .known i := kind_of_coherent hc hr hd
  refine ⟨fun t ht => ?_, fun f hf => ?_, exec_not_refused i s⟩
  · rw [step_of_next hs hr ((execRecord_known hk s).trans ht), traceEventOf_known hk]
    rfl
  · rw [step_of_fault hs hr ((execRecord_known hk s).trans hf)]
    rfl

/-- Settles O39: a line that shows the pattern has a Bypassed record, whose effect is the advance. -/
theorem bypassedLineOnlyAdvances : Obligations.BypassedLineOnlyAdvances := by
  unfold Obligations.BypassedLineOnlyAdvances
  intro s r hs hc hr hbypassed
  have hk : r.kind = .bypassed := hbypassed.elim (fun hb => kind_of_coherent hc hr (decodeLine_bypassed _ hb)) id
  rw [step_of_next hs hr (execRecord_bypassed hk s), traceEventOf_bypassed hk, ← hs]
  rfl

/-- R103: a line without the pattern whose mnemonic is unknown is not examined further. -/
theorem decodeLine_unknown {p : Params} {line : Text} (tb : Tables) (hb : containsText p.bypassPattern line = false)
    (hm : classify (mnemonicToken line) = .unknown) : decodeLine p tb line = .ok .unknown := by
  rw [decodeLine, hb, if_neg Bool.false_ne_true, decodeUnbypassed, hm]

/-- Settles O40: the line has an Unknown record, whose effect is the policy's. -/
theorem unknownMnemonicFollowsThePolicy : Obligations.UnknownMnemonicFollowsThePolicy := by
  unfold Obligations.UnknownMnemonicFollowsThePolicy
  intro s r hs hc hr hb hm
  have hk : r.kind = .unknown := kind_of_coherent hc hr (decodeLine_unknown _ hb hm)
  refine ⟨fun hskip => ?_, fun hfault => ?_⟩
  · rw [step_of_next hs hr (execRecord_unknown_skip hk hskip), traceEventOf_unknown hk, ← hs]
    rfl
  · rw [step_of_fault hs hr (execRecord_unknown_fault hk hfault)]
    rfl

/-! ### One event per completed step -/

/-- No record writes the trace: only the step around it does. -/
theorem execRecord_trace {r : Record} {s u : State} (h : execRecord r s = .next u) : u.trace = s.trace := by
  rcases execRecord_next h with ⟨i, -, hi⟩ | ⟨-, rfl⟩ | ⟨-, -, rfl⟩
  · obtain ⟨-, -, -, -, htrace⟩ := (exec_keeps hi).1.same
    exact htrace
  · rfl
  · rfl

/-- A completed step is no fault: it leaves the run halted or running. -/
theorem finishStep_not_faulted {u : State} (hu : u.status = .running) (e : TraceEvent) (rec : FaultRecord) :
    (finishStep e u).status ≠ .faulted rec := by
  rw [finishStep_status, hu]
  split <;> exact nofun

/-- Settles O44: a completed record leaves the trace to the step, which appends its event; a fault keeps the trace. -/
theorem eachCompletedStepEmitsOneEvent : Obligations.EachCompletedStepEmitsOneEvent := by
  unfold Obligations.EachCompletedStepEmitsOneEvent
  intro s t hs h
  obtain ⟨-, r, hr, ⟨u, hu, rfl⟩ | ⟨f, -, rfl⟩⟩ := step_cases h
  · obtain ⟨-, hstatus, -⟩ := execRecord_preserves hu
    refine ⟨r, hr, .inr ⟨finishStep_not_faulted (hstatus.trans hs) _, ?_⟩⟩
    rw [finishStep_trace, execRecord_trace hu]
    rcases hk : r.kind with i | _ | _
    · rw [traceEventOf_known hk]
      cases i with
      | call target => cases target <;> rfl
      | _ => rfl
    · rw [traceEventOf_unknown hk]
    · rw [traceEventOf_bypassed hk]
  · exact ⟨r, hr, .inl ⟨⟨_, rfl⟩, rfl⟩⟩

end Sys2Proof.Machine

/-! ## mov, the arithmetic and logic instructions, inc and dec (R120 to R127) -/

namespace Sys2Proof.Machine

/-! ### mov -/

theorem exec_mov_completes {s : State} {size : Size} {src : Operand} {dst : Dest} (hr : Readable s size src)
    (hw : Writable s size dst) :
    exec (.mov size src dst) s = .next (dataDone .mov s size dst (operandValue s size src)) := by
  simp only [exec, execMov]
  rw [readOp_readable (by simpa using hr), ok_bind, writeOp_writable _ (by simpa using hw)]
  simp [advance_destStored_clearFor]

theorem exec_mov_source_fault {s : State} {size : Size} {m : MemRef} (dst : Dest) (h : ¬ Accessible s size m) :
    exec (.mov size (.mem m) dst) s = .fault (accessFault s size m) := by
  simp only [exec, execMov]
  rw [readOp_unreadable (by simpa using h)]
  simp

theorem exec_mov_dest_fault {s : State} {size : Size} {src : Operand} {m : MemRef} (hr : Readable s size src)
    (h : ¬ Accessible s size m) : exec (.mov size src (.mem m)) s = .fault (accessFault s size m) := by
  simp only [exec, execMov]
  rw [readOp_readable (by simpa using hr), ok_bind, writeOp_unwritable _ (by simpa using h)]
  simp

/-- Settles O11: the three outcomes of `mov`, by which access faults. -/
theorem movCopiesSourceToDestination : Obligations.MovCopiesSourceToDestination := by
  unfold Obligations.MovCopiesSourceToDestination
  intro s size src dst
  refine ⟨exec_mov_completes, ?_, ?_⟩
  · rintro m rfl hm
    exact exec_mov_source_fault dst hm
  · rintro m rfl hr hm
    exact exec_mov_dest_fault hr hm

/-! ### add, sub, or, xor, and -/

/-- Each of the five is the shared pseudocode of R121 to R125 with its own operation. -/
theorem exec_eq_aluHandler {i : Instr} {size : Size} {src : Operand} {dst : Dest}
    (hi : i ∈ [Instr.add size src dst, .sub size src dst, .or size src dst, .xor size src dst, .and size src dst])
    (s : State) : ∃ op f, exec i s = outcomeOf (aluHandler op f size src dst s) := by
  simp only [List.mem_cons, List.not_mem_nil, or_false] at hi
  rcases hi with rfl | rfl | rfl | rfl | rfl <;> exact ⟨_, _, rfl⟩

/-- Settles O12: all five complete and fault as `aluHandler` does. -/
theorem aluWritesDestinationOpSource : Obligations.AluWritesDestinationOpSource := by
  unfold Obligations.AluWritesDestinationOpSource
  intro s size src dst
  refine ⟨fun hr hw => ?_, fun i hi => ?_⟩
  · have completes (op : Op) (f : Word → Word → Word) :=
      congrArg outcomeOf (aluHandler_completes (op := op) (f := f) hr hw)
    exact ⟨completes .add (· + ·), completes .sub (· - ·), completes .or (· ||| ·), completes .xor (· ^^^ ·),
      completes .and (· &&& ·)⟩
  · obtain ⟨op, f, hexec⟩ := exec_eq_aluHandler hi s
    rw [hexec]
    refine ⟨?_, ?_⟩
    · rintro m rfl hm
      rw [aluHandler_source_fault hm, outcomeOf_error]
    · rintro m rfl hr hm
      rw [aluHandler_dest_fault hr hm, outcomeOf_error]

/-! ### inc and dec -/

/-- Settles O13: both are `stepHandler`, adding or subtracting 1. -/
theorem incDecWriteResultAndZeroFlags : Obligations.IncDecWriteResultAndZeroFlags := by
  unfold Obligations.IncDecWriteResultAndZeroFlags
  intro s size dst
  refine ⟨fun hw => ?_, ?_⟩
  · have completes (f : Word → Word) := congrArg outcomeOf (stepHandler_completes (f := f) hw)
    exact ⟨completes (· + 1), completes (· - 1)⟩
  · rintro m rfl hm
    have faults (f : Word → Word) := congrArg outcomeOf (stepHandler_fault (f := f) hm)
    exact ⟨faults (· + 1), faults (· - 1)⟩

end Sys2Proof.Machine

/-! ## shl, shr, sar (R130 to R133) -/

namespace Sys2Proof.Machine

/-! ### The three shifts as arithmetic -/

/-- A left shift multiplies by a power of two; the bits past the top are the multiples of `2^w` (R131). -/
theorem shiftLeft_eq_ofNat_mul {w : Nat} (d : BitVec w) (n : Nat) : d <<< n = BitVec.ofNat w (d.toNat * 2 ^ n) := by
  apply BitVec.eq_of_toNat_eq
  rw [BitVec.toNat_shiftLeft, BitVec.toNat_ofNat, Nat.shiftLeft_eq]

/-- A right shift that fills with zeros divides the unsigned value (R132). -/
theorem ushiftRight_eq_ofNat_div {w : Nat} (d : BitVec w) (n : Nat) : d >>> n = BitVec.ofNat w (d.toNat / 2 ^ n) := by
  rw [← Nat.shiftRight_eq_div_pow, ← BitVec.toNat_ushiftRight, BitVec.ofNat_toNat, BitVec.setWidth_eq]

/-- A right shift that copies the sign bit divides the signed value, rounded down (R133). -/
theorem sshiftRight_eq_ofInt_div {w : Nat} (d : BitVec w) (n : Nat) :
    d.sshiftRight n = BitVec.ofInt w (d.toInt / 2 ^ n) := by
  rw [BitVec.sshiftRight, Int.shiftRight_eq_div_pow, Nat.cast_pow, Nat.cast_ofNat]

/-! ### shl, shr and sar -/

/-- Each of the three is the shared pseudocode of R131 to R133 with its own shift. -/
theorem exec_eq_shiftHandler {i : Instr} {size : Size} {src : Operand} {dst : Dest}
    (hi : i ∈ [Instr.shl size src dst, .shr size src dst, .sar size src dst]) (s : State) :
    ∃ op f, exec i s = outcomeOf (shiftHandler op f size src dst s) := by
  simp only [List.mem_cons, List.not_mem_nil, or_false] at hi
  rcases hi with rfl | rfl | rfl <;> exact ⟨_, _, rfl⟩

/-- Settles O14: all three complete and fault as `shiftHandler` does, and their shifts are the arithmetic above. -/
theorem shiftsMoveThePatternOrFaultOnTheCount : Obligations.ShiftsMoveThePatternOrFaultOnTheCount := by
  unfold Obligations.ShiftsMoveThePatternOrFaultOnTheCount
  intro s size src dst
  refine ⟨fun hr hw hc => ?_, fun i hi => ?_⟩
  · have completes (op : Op) (f : Word → Nat → Word) :=
      congrArg outcomeOf (shiftHandler_completes (op := op) (f := f) hr hw hc)
    dsimp only
    rw [← shiftLeft_eq_ofNat_mul, ← ushiftRight_eq_ofNat_div, ← sshiftRight_eq_ofInt_div]
    exact ⟨completes .shl (· <<< ·), completes .shr (· >>> ·), completes .sar BitVec.sshiftRight⟩
  · obtain ⟨op, f, hexec⟩ := exec_eq_shiftHandler hi s
    rw [hexec]
    refine ⟨?_, ?_, fun hr hw hc => ?_⟩
    · rintro m rfl hm
      rw [shiftHandler_source_fault hm, outcomeOf_error]
    · rintro m rfl hr hm
      rw [shiftHandler_dest_fault hr hm, outcomeOf_error]
    · rw [shiftHandler_count_fault hr hw hc, outcomeOf_error]

end Sys2Proof.Machine

/-! ## lea, mul, div (R140 to R142) -/

namespace Sys2Proof.Machine

/-! ### lea -/

theorem exec_lea_completes {s : State} {size : Size} {dst : Dest} (src : MemRef) (hw : Writable s size dst) :
    exec (.lea size src dst) s = .next (dataDone .lea s size dst (effectiveAddress s.cells src)) := by
  simp only [exec, execLea]
  rw [writeOp_writable _ (by simpa using hw)]
  simp [advance_destStored_clearFor]

theorem exec_lea_dest_fault {s : State} {size : Size} {m : MemRef} (src : MemRef) (h : ¬ Accessible s size m) :
    exec (.lea size src (.mem m)) s = .fault (accessFault s size m) := by
  simp only [exec, execLea]
  rw [writeOp_unwritable _ (by simpa using h)]
  simp

/-- Settles O15: only the write of the destination can fault. -/
theorem leaWritesTheAddressWithoutAccess : Obligations.LeaWritesTheAddressWithoutAccess := by
  unfold Obligations.LeaWritesTheAddressWithoutAccess
  intro s size src dst
  refine ⟨exec_lea_completes src, ?_⟩
  rintro m rfl hm
  exact exec_lea_dest_fault src hm

/-! ### mul and div, by the outcome of the read -/

/-- The pair written after the flag clear, and the advance. -/
theorem advance_writePair_clearFor (op : Op) (s : State) (size : Size) (lo hi : Word) :
    advance (writePair (clearFor op s) size lo hi) =
      { s with cells := pairStored s.cells size lo hi, flags := flagsAfter op s, pc := s.pc + 1 } := by
  simp [writePair_eq, advance, clearFor_flags_eq]

theorem exec_mul_completes {s : State} {size : Size} {src : Operand} (hr : Readable s size src) :
    exec (.mul size src) s = .next { s with
      cells := pairStored s.cells size
        (BitVec.ofNat 32 (exactProduct s size (operandValue s size src) % modulus size))
        (BitVec.ofNat 32 (exactProduct s size (operandValue s size src) / modulus size))
      flags := flagsAfter .mul s
      pc := s.pc + 1 } := by
  simp only [exec, execMul]
  rw [readOp_readable (by simpa using hr), ok_bind, advance_writePair_clearFor]
  simp [product_eq_exactProduct, two_pow_bitsOf]

theorem exec_mul_source_fault {s : State} {size : Size} {m : MemRef} (h : ¬ Accessible s size m) :
    exec (.mul size (.mem m)) s = .fault (accessFault s size m) := by
  simp only [exec, execMul]
  rw [readOp_unreadable (by simpa using h)]
  simp

/-- With a readable operand, R142 is the two checks in their order and then the pair. -/
theorem exec_div_readable {s : State} {size : Size} {src : Operand} (hr : Readable s size src) :
    exec (.div size src) s =
      let v := (operandValue s size src).toNat % modulus size
      let n := pairValue s.cells size
      if v = 0 then .fault (.divideByZero s.pc)
      else if modulus size ≤ n / v then .fault (.divideOverflow (n / v))
      else .next { s with
        cells := pairStored s.cells size (BitVec.ofNat 32 (n / v)) (BitVec.ofNat 32 (n % v))
        flags := flagsAfter .div s
        pc := s.pc + 1 } := by
  simp only [exec, execDiv]
  rw [readOp_readable (by simpa using hr), ok_bind]
  simp only [operandValue_clearFor, clearFor_cells, clearFor_pc, two_pow_bitsOf, dividend_eq_pairValue,
    advance_writePair_clearFor, apply_ite outcomeOf, outcomeOf_error, outcomeOf_ok]

theorem exec_div_source_fault {s : State} {size : Size} {m : MemRef} (h : ¬ Accessible s size m) :
    exec (.div size (.mem m)) s = .fault (accessFault s size m) := by
  simp only [exec, execDiv]
  rw [readOp_unreadable (by simpa using h)]
  simp

/-- Settles O16: the read either gives the operand, and then nothing faults, or is the fault. -/
theorem mulWritesTheAccumulatorPair : Obligations.MulWritesTheAccumulatorPair := by
  unfold Obligations.MulWritesTheAccumulatorPair
  intro s size src
  refine ⟨exec_mul_completes, ?_⟩
  rintro m rfl hm
  exact exec_mul_source_fault hm

/-- Settles O18: the clauses are the branches of R142. -/
theorem divWritesQuotientAndRemainderOrFaults : Obligations.DivWritesQuotientAndRemainderOrFaults := by
  unfold Obligations.DivWritesQuotientAndRemainderOrFaults
  intro s size src
  refine ⟨fun hr hv hq => ?_, ?_, fun hr hv => ?_, fun hr hv hq => ?_⟩
  · rw [exec_div_readable hr]
    exact (if_neg hv).trans (if_neg (Nat.not_le.mpr hq))
  · rintro m rfl hm
    exact exec_div_source_fault hm
  · rw [exec_div_readable hr]
    exact if_pos hv
  · rw [exec_div_readable hr]
    exact (if_neg hv).trans (if_pos hq)

/-! ### What the written pair reads as (R24, R25) -/

/-- A value below `2^w` passes through a word and a `w`-bit view unchanged. -/
theorem toNat_ofNat_mod_modulus {size : Size} {k : Nat} (hk : k < modulus size) :
    (BitVec.ofNat 32 k).toNat % modulus size = k := by
  rw [BitVec.toNat_ofNat, Nat.mod_eq_of_lt (hk.trans_le (modulus_le size)), Nat.mod_eq_of_lt hk]

theorem lowAcc_pairStored_ofNat {size : Size} {lo : Nat} (h : lo < modulus size) (c : Cells) (hi : Word) :
    (lowAcc (pairStored c size (BitVec.ofNat 32 lo) hi) size).toNat = lo := by
  rw [lowAcc_pairStored, toNat_ofNat_mod_modulus h]

theorem highAcc_pairStored_ofNat {size : Size} {hi : Nat} (h : hi < modulus size) (c : Cells) (lo : Word) :
    (highAcc (pairStored c size lo (BitVec.ofNat 32 hi)) size).toNat = hi := by
  rw [highAcc_pairStored, toNat_ofNat_mod_modulus h]

/-- A double-width value, split into its halves, reads back from the pair. -/
theorem pairValue_pairStored {size : Size} {p : Nat} (hp : p < modulus size * modulus size) (c : Cells) :
    pairValue (pairStored c size (BitVec.ofNat 32 (p % modulus size)) (BitVec.ofNat 32 (p / modulus size))) size = p := by
  rw [pairValue, lowAcc_pairStored_ofNat (Nat.mod_lt _ (modulus_pos size)),
    highAcc_pairStored_ofNat (Nat.div_lt_of_lt_mul hp), Nat.mul_comm, Nat.div_add_mod]

/-! ### The product fits the pair (R141) -/

theorem exactProduct_unsigned {s : State} {size : Size} (h : size ≠ .l ∨ s.params.mul32High = .unsigned) (x : Word) :
    exactProduct s size x = (lowAcc s.cells size).toNat * (x.toNat % modulus size) := by
  rw [exactProduct, if_neg]
  rintro ⟨hsize, hsigned⟩
  rcases h with hnarrow | hunsigned
  · exact hnarrow hsize
  · rw [hunsigned] at hsigned
    cases hsigned

theorem exactProduct_signed {s : State} (h : s.params.mul32High = .signed) (x : Word) :
    exactProduct s .l x = (BitVec.ofInt 64 (s.cells.a.toInt * x.toInt)).toNat := by
  rw [exactProduct, if_pos ⟨rfl, h⟩]

theorem exactProduct_lt (s : State) (size : Size) (x : Word) :
    exactProduct s size x < modulus size * modulus size := by
  by_cases h : size = .l ∧ s.params.mul32High = .signed
  · obtain ⟨rfl, hsigned⟩ := h
    rw [exactProduct_signed hsigned]
    exact BitVec.isLt _
  · rw [exactProduct, if_neg h]
    exact Nat.mul_lt_mul'' (lowAcc_lt _ _) (Nat.mod_lt _ (modulus_pos size))

/-- Settles O17: the pair reads as `exactProduct`, which is the one product or the other. -/
theorem mulPairReadsAsTheExactProduct : Obligations.MulPairReadsAsTheExactProduct := by
  unfold Obligations.MulPairReadsAsTheExactProduct
  intro s t size src h
  obtain ⟨-, rfl⟩ := exec_mul_next h
  dsimp only
  rw [pairValue_pairStored (exactProduct_lt s size _)]
  refine ⟨fun hunsigned => exactProduct_unsigned hunsigned _, ?_⟩
  rintro rfl hsigned
  rw [exactProduct_signed hsigned, BitVec.toNat_ofInt]
  exact Int.toNat_of_nonneg (Int.emod_nonneg _ (by decide))

/-- Settles O19: quotient and remainder are both below `2^w`, so each view reads back as it was written. -/
theorem divPairSatisfiesTheDivisionIdentity : Obligations.DivPairSatisfiesTheDivisionIdentity := by
  unfold Obligations.DivPairSatisfiesTheDivisionIdentity
  intro s t size src h
  obtain ⟨-, hv, hq, rfl⟩ := exec_div_next h
  have hr := Nat.mod_lt (pairValue s.cells size) (Nat.pos_of_ne_zero hv)
  have hd := Nat.mod_lt (operandValue s size src).toNat (modulus_pos size)
  dsimp only
  rw [lowAcc_pairStored_ofNat hq, highAcc_pairStored_ofNat (hr.trans hd)]
  exact ⟨Nat.div_add_mod' _ _, hr⟩

end Sys2Proof.Machine

/-! ## push, pop (R150, R151) -/

namespace Sys2Proof.Machine

/-! ### push -/

theorem exec_push_completes {s : State} {size : Size} {src : Operand} (hr : Readable s size src)
    (ha : SlotAccessible s (s.cells.sp - 4)) :
    exec (.push size src) s = .next { s with
      mem := dwordStored s.mem (s.cells.sp - 4).toNat (operandValue s size src)
      cells := { s.cells with sp := s.cells.sp - 4 }
      flags := flagsAfter .push s
      pc := s.pc + 1 } := by
  simp only [exec, execPush]
  rw [readOp_readable (by simpa using hr), ok_bind, pushSlot_accessible _ (by simpa [slotAccessible_clearFor] using ha)]
  simp [advance, clearFor_flags_eq]

theorem exec_push_source_fault {s : State} {size : Size} {m : MemRef} (h : ¬ Accessible s size m) :
    exec (.push size (.mem m)) s = .fault (accessFault s size m) := by
  simp only [exec, execPush]
  rw [readOp_unreadable (by simpa using h)]
  simp

theorem exec_push_slot_fault {s : State} {size : Size} {src : Operand} (hr : Readable s size src)
    (ha : ¬ SlotAccessible s (s.cells.sp - 4)) :
    exec (.push size src) s = .fault (.outOfBounds (s.cells.sp - 4) 4) := by
  simp only [exec, execPush]
  rw [readOp_readable (by simpa using hr), ok_bind, pushSlot_inaccessible _ (by simpa [slotAccessible_clearFor] using ha)]
  simp

/-- Settles O20: the read comes first, then the slot, each with its two outcomes. -/
theorem pushStoresAFourByteSlot : Obligations.PushStoresAFourByteSlot := by
  unfold Obligations.PushStoresAFourByteSlot
  intro s size src
  refine ⟨exec_push_completes, ?_, exec_push_slot_fault⟩
  rintro m rfl hm
  exact exec_push_source_fault hm

/-! ### pop -/

/-- The destination is written, then `SP`; a destination `esp` is therefore overwritten (R151). -/
theorem advance_setStackPointer_destStored_clearFor (op : Op) (s : State) (size : Size) (d : Dest) (v a : Word) :
    advance (setStackPointer (destStored (clearFor op s) size d v) a) =
      { destStored s size d v with
        cells := { (destStored s size d v).cells with sp := a }, flags := flagsAfter op s, pc := s.pc + 1 } := by
  cases d <;> simp [advance, setStackPointer, destStored, addressOf, clearFor_flags_eq]

theorem exec_pop_completes {s : State} {size : Size} {dst : Dest} (ha : SlotAccessible s s.cells.sp)
    (hw : Writable s size dst) :
    exec (.pop size dst) s = .next { destStored s size dst (dwordAt s.mem s.cells.sp.toNat) with
      cells := { (destStored s size dst (dwordAt s.mem s.cells.sp.toNat)).cells with sp := s.cells.sp + 4 }
      flags := flagsAfter .pop s
      pc := s.pc + 1 } := by
  simp only [exec, execPop, stackPointer_eq, clearFor_cells]
  rw [memRead_slot ((slotAccessible_clearFor _ _ _).mpr ha), ok_bind, writeOp_writable _ (by simpa using hw), ok_bind,
    advance_setStackPointer_destStored_clearFor]
  simp

theorem exec_pop_slot_fault {s : State} (size : Size) (dst : Dest) (ha : ¬ SlotAccessible s s.cells.sp) :
    exec (.pop size dst) s = .fault (.outOfBounds s.cells.sp 4) := by
  simp only [exec, execPop, stackPointer_eq, clearFor_cells]
  rw [memRead_outOfBounds (mt (slotAccessible_clearFor _ _ _).mp ha)]
  simp

theorem exec_pop_dest_fault {s : State} {size : Size} {m : MemRef} (ha : SlotAccessible s s.cells.sp)
    (h : ¬ Accessible s size m) : exec (.pop size (.mem m)) s = .fault (accessFault s size m) := by
  simp only [exec, execPop, stackPointer_eq, clearFor_cells]
  rw [memRead_slot ((slotAccessible_clearFor _ _ _).mpr ha), ok_bind, writeOp_unwritable _ (by simpa using h)]
  simp

/-- Settles O21: the slot is read first, then the destination is written, each with its two outcomes. -/
theorem popLoadsAFourByteSlot : Obligations.PopLoadsAFourByteSlot := by
  unfold Obligations.PopLoadsAFourByteSlot
  intro s size dst
  refine ⟨exec_pop_completes, exec_pop_slot_fault size dst, ?_⟩
  rintro m rfl ha hm
  exact exec_pop_dest_fault ha hm

/-! ### push and then pop -/

/-- A full-width view's cell holds what was written to the view (R25). -/
theorem getCell_viewStored_full {v : View} (h : widthOf v = 32) (c : Cells) (val : Word) :
    getCell (viewStored c v val) (slotOf v) = val := by
  rw [← writeView_eq_viewStored, writeView_full h, getCell_setCell_same]

/-- No view but `esp` lies in the cell `SP` (R23). -/
theorem slotOf_ne_sp {v : View} (h : v ≠ .esp) : slotOf v ≠ .sp := by
  cases v with
  | esp => exact absurd rfl h
  | _ => exact nofun

/-- Settles O29: `pop` finds its slot where `push` put it, and reads back the value stored there. -/
theorem pushThenPopMovesTheValue : Obligations.PushThenPopMovesTheValue := by
  unfold Obligations.PushThenPopMovesTheValue
  intro s size size' src v hwf hr ha hv hsp
  refine ⟨_, _, exec_push_completes hr ha, exec_pop_completes ha (writable_reg _ size' v), ?_,
    BitVec.sub_add_cancel _ _, rfl⟩
  rw [getCell_withSp (slotOf_ne_sp hsp)]
  exact (getCell_viewStored_full hv _ _).trans (dwordAt_dwordStored hwf _ _)

end Sys2Proof.Machine

/-! ## test, cmp (R160, R161) -/

namespace Sys2Proof.Machine

/-! ### The two outcomes of a comparison's reads -/

/-- Both comparisons are the shared pseudocode of R160 and R161, each with its own flags. -/
theorem exec_eq_compareHandler {i : Instr} {size : Size} {src dst : Operand}
    (hi : i = .test size src dst ∨ i = .cmp size src dst) (s : State) :
    ∃ f, exec i s = outcomeOf (compareHandler f size src dst s) := by
  rcases hi with rfl | rfl <;> exact ⟨_, rfl⟩

theorem exec_compare_source_fault {i : Instr} {s : State} {size : Size} {m : MemRef} {dst : Operand}
    (hi : i = .test size (.mem m) dst ∨ i = .cmp size (.mem m) dst) (h : ¬ Accessible s size m) :
    exec i s = .fault (accessFault s size m) := by
  obtain ⟨f, hexec⟩ := exec_eq_compareHandler hi s
  rw [hexec, compareHandler_source_fault h, outcomeOf_error]

theorem exec_compare_dest_fault {i : Instr} {s : State} {size : Size} {src : Operand} {m : MemRef}
    (hi : i = .test size src (.mem m) ∨ i = .cmp size src (.mem m)) (hr : Readable s size src)
    (h : ¬ Accessible s size m) : exec i s = .fault (accessFault s size m) := by
  obtain ⟨f, hexec⟩ := exec_eq_compareHandler hi s
  rw [hexec, compareHandler_dest_fault hr h, outcomeOf_error]

/-! ### test -/

theorem zeroFlags_eq_zeroOnly (r : Word) : zeroFlags r = zeroOnly r := rfl

theorem exec_test_completes {s : State} {size : Size} {src dst : Operand} (hr : Readable s size src)
    (hr' : Readable s size dst) :
    exec (.test size src dst) s = .next { s with
      flags := zeroOnly (operandValue s size dst &&& operandValue s size src)
      pc := s.pc + 1 } := by
  simp only [exec, execTest]
  rw [compareHandler_completes hr hr', outcomeOf_ok, zeroFlags_eq_zeroOnly]

/-- Settles O22: the source is read first, then the destination, each with its two outcomes. -/
theorem testSetsEqualAndZeroFromTheAnd : Obligations.TestSetsEqualAndZeroFromTheAnd := by
  unfold Obligations.TestSetsEqualAndZeroFromTheAnd
  intro s size src dst
  refine ⟨exec_test_completes, ?_, ?_⟩
  · rintro m rfl hm
    exact exec_compare_source_fault (.inl rfl) hm
  · rintro m rfl hr hm
    exact exec_compare_dest_fault (.inl rfl) hr hm

/-! ### cmp -/

/-- The signed flags follow the order of the two's complement integers, the unsigned ones that of the naturals (R161). -/
theorem compareFlags_eq_relations (d x : Word) :
    compareFlags d x = {
      l := decide (d.toInt < x.toInt)
      le := decide (d.toInt ≤ x.toInt)
      e := decide (d = x)
      ge := decide (d.toInt ≥ x.toInt)
      g := decide (d.toInt > x.toInt)
      a := decide (d.toNat > x.toNat)
      ae := decide (d.toNat ≥ x.toNat)
      z := decide (d = x) } := by
  simp only [compareFlags, BitVec.slt_eq_decide, BitVec.sle_eq_decide, BitVec.ult_eq_decide, BitVec.ule_eq_decide,
    ge_iff_le, gt_iff_lt]

theorem exec_cmp_completes {s : State} {size : Size} {src dst : Operand} (hr : Readable s size src)
    (hr' : Readable s size dst) :
    exec (.cmp size src dst) s = .next { s with
      flags := compareFlags (operandValue s size dst) (operandValue s size src)
      pc := s.pc + 1 } := by
  simp only [exec, execCmp]
  rw [compareHandler_completes hr hr', outcomeOf_ok]

/-- Settles O23: the reads fault as those of `test` do, and the flags are the eight relations. -/
theorem cmpSetsTheEightRelations : Obligations.CmpSetsTheEightRelations := by
  unfold Obligations.CmpSetsTheEightRelations
  intro s size src dst
  refine ⟨fun hr hr' => ?_, ?_, ?_⟩
  · rw [exec_cmp_completes hr hr', compareFlags_eq_relations]
  · rintro m rfl hm
    exact exec_compare_source_fault (.inr rfl) hm
  · rintro m rfl hr hm
    exact exec_compare_dest_fault (.inr rfl) hr hm

end Sys2Proof.Machine

/-! ## Jumps, loop, call, ret and int (R170 to R184) -/

namespace Sys2Proof.Machine

/-! ### Jumps and int -/

/-- A branch changes only `pc`. -/
theorem branch_eq (c : Bool) (t : Nat) (s : State) : branch c t s = { s with pc := if c then t else s.pc + 1 } :=
  branch_next rfl

/-- The branch on a flag's negation, as R178 and R180 take it. -/
theorem branch_not (c : Bool) (t : Nat) (s : State) :
    branch (!c) t s = { s with pc := if c = false then t else s.pc + 1 } := by
  simp only [branch_eq, Bool.not_eq_true']

/-- Settles O24: each conditional jump is the branch on its flag, or on the flag's negation. -/
theorem jumpsFollowTheirFlag : Obligations.JumpsFollowTheirFlag := by
  unfold Obligations.JumpsFollowTheirFlag
  intro s t
  have taken (c : Bool) := congrArg (Host.Outcome.next (φ := Fault) (ρ := Refusal)) (branch_eq c t s)
  have takenUnless (c : Bool) := congrArg (Host.Outcome.next (φ := Fault) (ρ := Refusal)) (branch_not c t s)
  exact ⟨rfl, taken s.flags.l, taken s.flags.le, taken s.flags.e, taken s.flags.ge, taken s.flags.g, taken s.flags.a,
    taken s.flags.ae, takenUnless s.flags.e, taken s.flags.z, takenUnless s.flags.z⟩

/-- Settles O28: the handler of `int` is the advance. -/
theorem intOnlyAdvances : Obligations.IntOnlyAdvances := by
  unfold Obligations.IntOnlyAdvances
  exact fun _ _ => rfl

/-! ### loop -/

/-- Settles O25: nothing in `loop` can fault, and its decremented `ecx` is 0 exactly when `ecx` was 1. -/
theorem loopDecrementsEcxAndJumpsUnlessZero : Obligations.LoopDecrementsEcxAndJumpsUnlessZero := by
  unfold Obligations.LoopDecrementsEcxAndJumpsUnlessZero
  intro s t
  obtain ⟨u, hu⟩ : ∃ u, exec (.loop t) s = .next u := ⟨_, rfl⟩
  have hzero : s.cells.c - 1 = 0 ↔ s.cells.c = 1 := sub_eq_zero
  rw [hu, exec_loop_next hu]
  simp only [hzero]

/-! ### call -/

theorem exec_call_internal_completes {s : State} (t : Nat) (ha : SlotAccessible s (s.cells.sp - 4)) :
    exec (.call (.internal t)) s = .next { s with
      mem := dwordStored s.mem (s.cells.sp - 4).toNat (BitVec.ofNat 32 (s.pc + 1))
      cells := { s.cells with sp := s.cells.sp - 4 }
      pc := t } := by
  simp only [exec, execCall]
  rw [pushSlot_accessible _ ha, ok_bind, outcomeOf_ok, jumpTo]

theorem exec_call_internal_fault {s : State} (t : Nat) (ha : ¬ SlotAccessible s (s.cells.sp - 4)) :
    exec (.call (.internal t)) s = .fault (.outOfBounds (s.cells.sp - 4) 4) := by
  simp only [exec, execCall]
  rw [pushSlot_inaccessible _ ha, error_bind, outcomeOf_error]

/-- Settles O26: an internal call is the slot push, with its two outcomes, and then the jump. -/
theorem callPushesTheReturnIndex : Obligations.CallPushesTheReturnIndex := by
  unfold Obligations.CallPushesTheReturnIndex
  intro s t name
  exact ⟨exec_call_internal_completes t, exec_call_internal_fault t, rfl⟩

/-! ### ret -/

theorem exec_ret_completes {s : State} (ha : SlotAccessible s s.cells.sp) :
    exec .ret s = .next { s with
      cells := { s.cells with sp := s.cells.sp + 4 }
      pc := if (dwordAt s.mem s.cells.sp.toNat).toNat < s.program.code.length
            then (dwordAt s.mem s.cells.sp.toNat).toNat else s.program.code.length } := by
  simp only [exec, execRet, stackPointer_eq]
  rw [memRead_slot ha, ok_bind, outcomeOf_ok]
  simp [jumpTo, setStackPointer, programLength]

theorem exec_ret_fault {s : State} (ha : ¬ SlotAccessible s s.cells.sp) :
    exec .ret s = .fault (.outOfBounds s.cells.sp 4) := by
  simp only [exec, execRet, stackPointer_eq]
  rw [memRead_outOfBounds ha, error_bind, outcomeOf_error]

/-- Settles O27: the read of the slot is all that can fault. -/
theorem retPopsTheReturnIndex : Obligations.RetPopsTheReturnIndex := by
  unfold Obligations.RetPopsTheReturnIndex
  exact fun _ => ⟨exec_ret_completes, exec_ret_fault⟩

/-! ### call and then ret -/

/-- A return index fits the word it is stored in: `pc` lies in a program of at most `2^31 - 1` lines (R29). -/
theorem toNat_returnIndex {pc n : Nat} (hpc : pc < n) (hn : n ≤ 2147483647) :
    (BitVec.ofNat 32 (pc + 1)).toNat = pc + 1 := by
  rw [BitVec.toNat_ofNat]
  omega

/-- Settles O30: `ret` finds its slot where `call` put it, and reads back the return index; after the last line of the program
that index is `N`, which is also where `ret` goes when the index is no index of the program. -/
theorem callThenRetReturns : Obligations.CallThenRetReturns := by
  unfold Obligations.CallThenRetReturns
  intro s target hwf ha hpc hn
  refine ⟨_, _, exec_call_internal_completes target ha, rfl, exec_ret_completes ha, ?_, ?_⟩
  · dsimp only
    rw [dwordAt_dwordStored hwf, toNat_returnIndex hpc hn]
    split <;> omega
  · dsimp only
    rw [BitVec.sub_add_cancel]

end Sys2Proof.Machine

/-! ## Faults and load errors (R201 to R204) -/

namespace Sys2Proof.Machine

/-- R101, R202: no step is enabled in `Faulted`. -/
theorem step_ne_next_of_faulted {s : State} {rec : FaultRecord} (hs : s.status = .faulted rec) (u : State) :
    step s ≠ .next u := by
  intro h
  obtain ⟨hrunning, -⟩ := step_cases h
  rw [hs] at hrunning
  cases hrunning

/-- Settles O41: a completed record leaves no fault, so the step is the taking of one, which writes only the status. -/
theorem faultsArePreciseAndTerminal : Obligations.FaultsArePreciseAndTerminal := by
  unfold Obligations.FaultsArePreciseAndTerminal
  intro s t rec h hfaulted hs
  obtain ⟨-, r, hr, ⟨u, hu, rfl⟩ | ⟨f, -, rfl⟩⟩ := step_cases h
  · obtain ⟨-, hstatus, -⟩ := execRecord_preserves hu
    exact absurd hfaulted (finishStep_not_faulted (hstatus.trans hs) _ rec)
  · have hrec : { fault := f, pc := s.pc, text := r.text } = rec := Status.faulted.inj hfaulted
    subst hrec
    exact ⟨rfl, rfl, ⟨r, hr, rfl⟩, step_ne_next_of_faulted rfl⟩

/-- A load whose first failing line stands after `before` is refused with that line's error. -/
theorem load_lineFails {s : State} {inp : LoadInput} {before after : List Text} {line : Text} {e : LineError}
    (hlines : inp.lines.length ≤ 2147483647) (himage : inp.image.length ≤ s.params.capacity)
    (hsplit : inp.lines = before ++ line :: after)
    (hbefore : ∀ l ∈ before, ∃ k, decodeLine s.params inp.tables l = .ok k)
    (hline : decodeLine s.params inp.tables line = .error e) :
    (load s inp).status = .loadRefused (lineLoadError before.length line e) := by
  have hcode : decodeLines s.params inp.tables 0 inp.lines = .error (lineLoadError before.length line e) := by
    rw [hsplit, decodeLines_error 0 hbefore hline, Nat.zero_add]
  rw [load_fits hlines himage]
  simp only [decodeProgram, resetWith_params, hcode, refuseLoad_status]

/-- A load whose lines all decode is refused when its entry label is not bound (R223). -/
theorem load_entryUnbound {s : State} {inp : LoadInput} (hlines : inp.lines.length ≤ 2147483647)
    (himage : inp.image.length ≤ s.params.capacity)
    (hdecode : ∀ l ∈ inp.lines, ∃ k, decodeLine s.params inp.tables l = .ok k)
    (hentry : lookupName inp.entry inp.tables.textLabels = none) :
    (load s inp).status = .loadRefused (.unresolvedLabel none inp.entry) := by
  obtain ⟨code, hcode, -⟩ := decodeLines_ok 0 hdecode
  rw [load_fits hlines himage]
  simp only [decodeProgram, resetWith_params, hcode]
  rw [enterProgram_missing hentry, refuseLoad_status]

/-- Settles O48: each clause is the load's behaviour at one of its checks, the earlier ones passed. -/
theorem loadErrorsAreReportedInOrder : Obligations.LoadErrorsAreReportedInOrder := by
  unfold Obligations.LoadErrorsAreReportedInOrder
  intro s inp
  refine ⟨fun hlong => ?_, fun hlines himage => ?_, fun hlines himage => ⟨?_, load_entryUnbound hlines himage⟩⟩
  · rw [load_tooLong hlong, refuseLoad_status]
  · rw [load_imageTooLarge hlines himage, refuseLoad_status]
  · intro before line after e hsplit hbefore hline
    rw [load_lineFails hlines himage hsplit hbefore hline]
    cases e <;> rfl

end Sys2Proof.Machine

/-! ## Reset, the end of the run, and the hazards (R220 to R227) -/

namespace Sys2Proof.Machine

/-! ### Loads -/

/-- Settles O49: the status alone decides a step request, and that of a load error refuses it. -/
theorem loadErrorEnablesNoStep : Obligations.LoadErrorEnablesNoStep := by
  unfold Obligations.LoadErrorEnablesNoStep
  intro s inp e hstatus
  rw [step, stepRequest, hstatus]

/-- Settles O50: `inv_load`, which follows the load through its checks. -/
theorem loadEstablishesTheInvariant : Obligations.LoadEstablishesTheInvariant := by
  unfold Obligations.LoadEstablishesTheInvariant
  exact fun s _ hinp => inv_load s hinp

/-! ### The end of the run -/

/-- Settles O43: a completed record leaves the status Running and the program as it was, so the step halts exactly at `N`;
a fault keeps `pc`. -/
theorem runHaltsExactlyAtTheEnd : Obligations.RunHaltsExactlyAtTheEnd := by
  unfold Obligations.RunHaltsExactlyAtTheEnd
  intro s t hs h
  obtain ⟨-, r, -, ⟨u, hu, rfl⟩ | ⟨f, -, rfl⟩⟩ := step_cases h
  · obtain ⟨-, hstatus, -⟩ := execRecord_preserves hu
    rw [finishStep_status, finishStep_pc, finishStep_program, hstatus, hs]
    by_cases hend : u.pc = u.program.code.length
    · exact .inl ⟨if_pos hend, hend⟩
    · exact .inr (.inl ⟨if_neg hend, hend⟩)
  · exact .inr (.inr ⟨_, rfl, rfl⟩)

/-! ### The hazard of the cleared flags (R226) -/

theorem exec_clearing_flags {i : Instr} {s t : State} (hp : opOf i ∈ plainDataOps) (hc : opOf i ∈ s.params.flagClearSet)
    (h : exec i s = .next t) : t.flags = noFlags :=
  (exec_plainData_flags hp h).trans (if_pos hc)

/-- Settles O31: the clear leaves no flag set, so only the two jumps on a flag's negation are taken. -/
theorem flagClearHidesTheComparison : Obligations.FlagClearHidesTheComparison := by
  unfold Obligations.FlagClearHidesTheComparison
  intro s t i k hp hc h
  have hflags : t.flags = noFlags := exec_clearing_flags hp hc h
  obtain ⟨-, hjl, hjle, hje, hjge, hjg, hja, hjae, hjne, hjz, hjnz⟩ := jumpsFollowTheirFlag t k
  simp [hjl, hjle, hje, hjge, hjg, hja, hjae, hjne, hjz, hjnz, hflags, noFlags]

/-! ### The stack pointer (R227) -/

theorem destOperand_mem_operandsOf {i : Instr} {size : Size} {d : Dest} (hd : destOf i = some (size, d)) :
    destOperand d ∈ operandsOf i := by
  cases i <;> cases hd <;> simp [operandsOf]

/-- Only a destination that is the register `esp` itself lies in the cell `SP`. -/
theorem namesView_esp_of_sp_mem_destSlots {d : Dest} (h : Slot.sp ∈ destSlots d) :
    namesView .esp (destOperand d) = true := by
  cases d with
  | reg v =>
    obtain rfl : v = .esp := by
      by_contra hv
      exact slotOf_ne_sp hv (List.mem_singleton.1 h).symm
    rfl
  | mem m => cases h

/-- The instructions that may write `SP`: the stack instructions, and those whose destination is `esp`. -/
theorem movesStack_or_namesEsp_of_sp_mem_writtenSlots {i : Instr} (h : Slot.sp ∈ writtenSlots i) :
    movesStack i ∨ ∃ o ∈ operandsOf i, namesView .esp o = true := by
  cases hd : destOf i with
  | some p =>
    obtain ⟨size, d⟩ := p
    rw [writtenSlots_of_destOf hd] at h
    exact .inr ⟨_, destOperand_mem_operandsOf hd, namesView_esp_of_sp_mem_destSlots h⟩
  | none =>
    cases i with
    | push | pop | ret => exact .inl trivial
    | call target =>
      cases target with
      | internal => exact .inl trivial
      | external => cases h
    | mul size | div size => cases size <;> simp [writtenSlots] at h
    | loop => simp [writtenSlots] at h
    | test | cmp | jmp | jl | jle | je | jge | jg | ja | jae | jne | jz | jnz | int => cases h
    | _ => cases hd

/-- A step changes `SP` only at an instruction that may write it. -/
theorem step_sp_changes {s t : State} {r : Record} (hr : s.program.code[s.pc]? = some r) (h : step s = .next t)
    (hsp : t.cells.sp ≠ s.cells.sp) : ∃ i, r.kind = .known i ∧ Slot.sp ∈ writtenSlots i := by
  obtain ⟨-, r', hr', ⟨u, hu, rfl⟩ | ⟨f, -, rfl⟩⟩ := step_cases h
  · obtain rfl : r' = r := Option.some.inj (hr'.symm.trans hr)
    rcases execRecord_next hu with ⟨i, hk, hi⟩ | ⟨-, rfl⟩ | ⟨-, -, rfl⟩
    · refine ⟨i, hk, ?_⟩
      by_contra hslot
      exact hsp (onlyNamedAndImplicitCellsAreWritten s u i .sp hi hslot)
    · exact absurd rfl hsp
    · exact absurd rfl hsp
  · exact absurd rfl hsp

/-- Settles O60: a coherent record is Known only if its line lacks the pattern and, unless `SpacedEsp` is run, names no
`esp`; what may write `SP` is then a stack instruction. -/
theorem spChangesOnlyThroughTheStackInstructions : Obligations.SpChangesOnlyThroughTheStackInstructions := by
  unfold Obligations.SpChangesOnlyThroughTheStackInstructions
  intro s t r _ hc hr hpattern h
  have hdecode (i : Instr) (hk : r.kind = .known i) : decodeLine s.params s.program.tables r.text = .ok (.known i) :=
    hk ▸ hc r (List.mem_of_getElem? hr)
  have hnames (hrun : s.params.spacedEsp ≠ .run) (i : Instr) (hk : r.kind = .known i) :
      ∀ o ∈ operandsOf i, namesView .esp o = false := decodeLine_not_esp hpattern hrun (hdecode i hk)
  refine ⟨fun i hk => (decodeLine_known (hdecode i hk)).1, hnames, fun hsp => ?_⟩
  obtain ⟨i, hk, hslot⟩ := step_sp_changes hr h hsp
  refine ⟨i, hk, (movesStack_or_namesEsp_of_sp_mem_writtenSlots hslot).imp_right fun ⟨o, ho, hesp⟩ => ⟨?_, o, ho, hesp⟩⟩
  by_contra hrun
  exact Bool.false_ne_true ((hnames hrun i hk o ho).symm.trans hesp)

end Sys2Proof.Machine
